-- ==== Sys2Proof/Word.lean ====
section
/-! DEFINITION. The word and byte types of the core (spec/00_scope.md R5). -/

namespace Sys2Proof

/-- R5: every register, memory cell, address and instruction word is 16 bits wide. -/
abbrev Word := BitVec 16

/-- R13, R14: a character of the input source and a byte of the console stream are 8 bits wide. -/
abbrev Byte := BitVec 8

end Sys2Proof
end

