-- ==== Sys2Proof/Syntax.lean ====
section
/-! DEFINITION. The instructions of the core: one constructor per row of spec/opcode_table.json (spec/30_encoding.md R71).
Bits that a format marks with a dash (R66) are kept as a field named `unused…`: no meaning depends on them, but a fault
records the whole instruction word (R150), so no bit of a word may be dropped. Log entry 10. -/

namespace Sys2Proof

/-- R20, R63: the index of one of the eight general registers R0 to R7. -/
abbrev Reg := Fin 8

/-- R61, R71: the 25 rows of the opcode table, in its order. -/
inductive Instr where
  /-- BR, `0000 nzp ooooooooo` (R120). -/
  | br (n z p : Bool) (off9 : BitVec 9)
  /-- ADD, register form, `0001 ddd aaa 0 -- bbb` (R90). -/
  | add (dr sr1 sr2 : Reg) (unused : BitVec 2)
  /-- ADD, immediate form, `0001 ddd aaa 1 iiiii` (R91). -/
  | addi (dr sr1 : Reg) (imm5 : BitVec 5)
  /-- LD, `0010 ddd ooooooooo` (R100). -/
  | ld (dr : Reg) (off9 : BitVec 9)
  /-- ST, `0011 sss ooooooooo` (R101). -/
  | st (sr : Reg) (off9 : BitVec 9)
  /-- JSRR, `0100 0 -- bbb ------` (R123). -/
  | jsrr (unusedHi : BitVec 2) (baser : Reg) (unusedLo : BitVec 6)
  /-- JSR, `0100 1 ooooooooooo` (R122). -/
  | jsr (off11 : BitVec 11)
  /-- AND, register form, `0101 ddd aaa 0 -- bbb` (R92). -/
  | and (dr sr1 sr2 : Reg) (unused : BitVec 2)
  /-- AND, immediate form, `0101 ddd aaa 1 iiiii` (R93). -/
  | andi (dr sr1 : Reg) (imm5 : BitVec 5)
  /-- LDR, `0110 ddd bbb oooooo` (R102). -/
  | ldr (dr baser : Reg) (off6 : BitVec 6)
  /-- STR, `0111 sss bbb oooooo` (R103). -/
  | str (sr baser : Reg) (off6 : BitVec 6)
  /-- RTI, `1000 ------------` (R138). -/
  | rti (unused : BitVec 12)
  /-- NOT, `1001 ddd aaa ------` (R94). -/
  | not (dr sr : Reg) (unused : BitVec 6)
  /-- LDI, `1010 ddd ooooooooo` (R104). -/
  | ldi (dr : Reg) (off9 : BitVec 9)
  /-- STI, `1011 sss ooooooooo` (R105). -/
  | sti (sr : Reg) (off9 : BitVec 9)
  /-- JMP, `1100 --- bbb ------` (R121). -/
  | jmp (unusedHi : BitVec 3) (baser : Reg) (unusedLo : BitVec 6)
  /-- RES, `1101 ------------` (R139). -/
  | res (unused : BitVec 12)
  /-- LEA, `1110 ddd ooooooooo` (R106). -/
  | lea (dr : Reg) (off9 : BitVec 9)
  /-- TRAP x20, GETC, `1111 ---- 00100000` (R131). -/
  | trapGetc (unused : BitVec 4)
  /-- TRAP x21, OUT, `1111 ---- 00100001` (R132). -/
  | trapOut (unused : BitVec 4)
  /-- TRAP x22, PUTS, `1111 ---- 00100010` (R133). -/
  | trapPuts (unused : BitVec 4)
  /-- TRAP x23, IN, `1111 ---- 00100011` (R134). -/
  | trapIn (unused : BitVec 4)
  /-- TRAP x24, PUTSP, `1111 ---- 00100100` (R135). -/
  | trapPutsp (unused : BitVec 4)
  /-- TRAP x25, HALT, `1111 ---- 00100101` (R136). -/
  | trapHalt (unused : BitVec 4)
  /-- TRAP with a vector outside 0x20 to 0x25, `1111 ---- vvvvvvvv` (R137). -/
  | trapUndef (unused : BitVec 4) (trapvect8 : BitVec 8)
deriving DecidableEq, Repr

end Sys2Proof
end

