-- ==== Sys2Proof/WellFormed.lean ====
section
/-! DEFINITION. Which terms of `Instr` stand for a word of the opcode table. Every field has the width of its bits, and every
value of a register field and of an immediate is legal (spec/30_encoding.md R63, R64), so one check is left: the row
TRAP_UNDEF is matched last (R70). -/

namespace Sys2Proof

/-- R68: the six defined trap vectors, 0x20 to 0x25. -/
def definedTrapVector (v : BitVec 8) : Bool :=
  decide (0x20#8 ≤ v) && decide (v ≤ 0x25#8)

/-- R70: a word is `TRAP_UNDEF` only when it matches none of the six defined TRAP rows; every other term is well formed. -/
def Instr.wf : Instr → Bool
  | .br _ _ _ _ => true
  | .add _ _ _ _ => true
  | .addi _ _ _ => true
  | .ld _ _ => true
  | .st _ _ => true
  | .jsrr _ _ _ => true
  | .jsr _ => true
  | .and _ _ _ _ => true
  | .andi _ _ _ => true
  | .ldr _ _ _ => true
  | .str _ _ _ => true
  | .rti _ => true
  | .not _ _ _ => true
  | .ldi _ _ => true
  | .sti _ _ => true
  | .jmp _ _ _ => true
  | .res _ => true
  | .lea _ _ => true
  | .trapGetc _ => true
  | .trapOut _ => true
  | .trapPuts _ => true
  | .trapIn _ => true
  | .trapPutsp _ => true
  | .trapHalt _ => true
  | .trapUndef _ v => !definedTrapVector v

end Sys2Proof
end

