-- ==== Sys2Proof/Decode.lean ====
section
/-! DEFINITION. The decoder (spec/30_encoding.md R60 to R71, spec/40_fetch_decode.md R83), the encoder written from the same
formats, and the opcode table. An instruction is one 16-bit word in one cell (R60) and every word decodes to exactly one row
(R70), so the decoder is total on words and rejects none: the unsupported opcodes and the undefined vectors are rows of their
own, and their meanings raise the fault the spec names. -/

namespace Sys2Proof

/-! ### Fields of a word -/

/-- R60: the opcode `instr[15:12]`. -/
def opcodeOf (w : Word) : BitVec 4 := w.extractLsb' 12 4

/-- R63: the register field whose lowest bit is `lo`, used directly as an index. -/
def regAt (w : Word) (lo : Nat) : Reg := (w.extractLsb' lo 3).toFin

/-- R63: a register index as its 3-bit field. -/
def Reg.bits (r : Reg) : BitVec 3 := BitVec.ofFin r

/-- R5: a field laid at bit `lo` of an otherwise zero word. -/
def place {k : Nat} (f : BitVec k) (lo : Nat) : Word := f.setWidth 16 <<< lo

/-! ### The decoder -/

/-- R68, R70: opcode 0xF splits on `instr[7:0]`; every vector outside 0x20 to 0x25 goes to TRAP_UNDEF. -/
def decodeTrap (w : Word) : Instr :=
  match w.extractLsb' 0 8 with
  | 0x20#8 => .trapGetc (w.extractLsb' 8 4)
  | 0x21#8 => .trapOut (w.extractLsb' 8 4)
  | 0x22#8 => .trapPuts (w.extractLsb' 8 4)
  | 0x23#8 => .trapIn (w.extractLsb' 8 4)
  | 0x24#8 => .trapPutsp (w.extractLsb' 8 4)
  | 0x25#8 => .trapHalt (w.extractLsb' 8 4)
  | v => .trapUndef (w.extractLsb' 8 4) v

/-- R61, R65, R70: take `instr[15:12]`; for 0x1 and 0x5 split on `instr[5]`; for 0x4 split on `instr[11]`; for 0xF split on
the vector. The last arm is opcode 0xF, the only 4-bit value left. -/
def decode (w : Word) : Instr :=
  match opcodeOf w with
  | 0x0#4 => .br w[11] w[10] w[9] (w.extractLsb' 0 9)
  | 0x1#4 =>
    if w[5] then .addi (regAt w 9) (regAt w 6) (w.extractLsb' 0 5)
    else .add (regAt w 9) (regAt w 6) (regAt w 0) (w.extractLsb' 3 2)
  | 0x2#4 => .ld (regAt w 9) (w.extractLsb' 0 9)
  | 0x3#4 => .st (regAt w 9) (w.extractLsb' 0 9)
  | 0x4#4 =>
    if w[11] then .jsr (w.extractLsb' 0 11)
    else .jsrr (w.extractLsb' 9 2) (regAt w 6) (w.extractLsb' 0 6)
  | 0x5#4 =>
    if w[5] then .andi (regAt w 9) (regAt w 6) (w.extractLsb' 0 5)
    else .and (regAt w 9) (regAt w 6) (regAt w 0) (w.extractLsb' 3 2)
  | 0x6#4 => .ldr (regAt w 9) (regAt w 6) (w.extractLsb' 0 6)
  | 0x7#4 => .str (regAt w 9) (regAt w 6) (w.extractLsb' 0 6)
  | 0x8#4 => .rti (w.extractLsb' 0 12)
  | 0x9#4 => .not (regAt w 9) (regAt w 6) (w.extractLsb' 0 6)
  | 0xA#4 => .ldi (regAt w 9) (w.extractLsb' 0 9)
  | 0xB#4 => .sti (regAt w 9) (w.extractLsb' 0 9)
  | 0xC#4 => .jmp (w.extractLsb' 9 3) (regAt w 6) (w.extractLsb' 0 6)
  | 0xD#4 => .res (w.extractLsb' 0 12)
  | 0xE#4 => .lea (regAt w 9) (w.extractLsb' 0 9)
  | _ => decodeTrap w

/-- The instruction the decoder reads from a word numbered as spec/opcode_table.json numbers it: bit 0 is the least
significant bit of the one word an instruction has (R60). A row of the table has 16 bits; a longer word is no instruction. -/
def decodeTableWord (nbits w : Nat) : Option Instr :=
  if nbits ≤ 16 then some (decode (BitVec.ofNat 16 (w % 2 ^ nbits))) else none

/-! ### The encoder -/

/-- Format T8 (R62): opcode 0xF, four unused bits, the vector. -/
def encodeTrap (unused : BitVec 4) (v : BitVec 8) : Word :=
  place 0xF#4 12 ||| place unused 8 ||| place v 0

/-- Format RRR (R62). -/
def encodeRRR (op : BitVec 4) (dr sr1 sr2 : Reg) (unused : BitVec 2) : Word :=
  place op 12 ||| place dr.bits 9 ||| place sr1.bits 6 ||| place 0#1 5 ||| place unused 3 ||| place sr2.bits 0

/-- Format RRI5 (R62). -/
def encodeRRI5 (op : BitVec 4) (dr sr1 : Reg) (imm5 : BitVec 5) : Word :=
  place op 12 ||| place dr.bits 9 ||| place sr1.bits 6 ||| place 1#1 5 ||| place imm5 0

/-- Format RO9 (R62). -/
def encodeRO9 (op : BitVec 4) (r : Reg) (off9 : BitVec 9) : Word :=
  place op 12 ||| place r.bits 9 ||| place off9 0

/-- Formats RBO6 and RR (R62): a register, a register, six bits. -/
def encodeRBO6 (op : BitVec 4) (r baser : Reg) (low : BitVec 6) : Word :=
  place op 12 ||| place r.bits 9 ||| place baser.bits 6 ||| place low 0

/-- Format NONE (R62). -/
def encodeNone (op : BitVec 4) (unused : BitVec 12) : Word :=
  place op 12 ||| place unused 0

/-- R62, R71: the word of an instruction, each field at the bits its format gives it. -/
def encode : Instr → Word
  | .br n z p off9 =>
    place 0x0#4 12 ||| place (BitVec.ofBool n) 11 ||| place (BitVec.ofBool z) 10 ||| place (BitVec.ofBool p) 9 |||
      place off9 0
  | .add dr sr1 sr2 unused => encodeRRR 0x1#4 dr sr1 sr2 unused
  | .addi dr sr1 imm5 => encodeRRI5 0x1#4 dr sr1 imm5
  | .ld dr off9 => encodeRO9 0x2#4 dr off9
  | .st sr off9 => encodeRO9 0x3#4 sr off9
  | .jsrr unusedHi baser unusedLo =>
    place 0x4#4 12 ||| place 0#1 11 ||| place unusedHi 9 ||| place baser.bits 6 ||| place unusedLo 0
  | .jsr off11 => place 0x4#4 12 ||| place 1#1 11 ||| place off11 0
  | .and dr sr1 sr2 unused => encodeRRR 0x5#4 dr sr1 sr2 unused
  | .andi dr sr1 imm5 => encodeRRI5 0x5#4 dr sr1 imm5
  | .ldr dr baser off6 => encodeRBO6 0x6#4 dr baser off6
  | .str sr baser off6 => encodeRBO6 0x7#4 sr baser off6
  | .rti unused => encodeNone 0x8#4 unused
  | .not dr sr unused => encodeRBO6 0x9#4 dr sr unused
  | .ldi dr off9 => encodeRO9 0xA#4 dr off9
  | .sti sr off9 => encodeRO9 0xB#4 sr off9
  | .jmp unusedHi baser unusedLo =>
    place 0xC#4 12 ||| place unusedHi 9 ||| place baser.bits 6 ||| place unusedLo 0
  | .res unused => encodeNone 0xD#4 unused
  | .lea dr off9 => encodeRO9 0xE#4 dr off9
  | .trapGetc unused => encodeTrap unused 0x20#8
  | .trapOut unused => encodeTrap unused 0x21#8
  | .trapPuts unused => encodeTrap unused 0x22#8
  | .trapIn unused => encodeTrap unused 0x23#8
  | .trapPutsp unused => encodeTrap unused 0x24#8
  | .trapHalt unused => encodeTrap unused 0x25#8
  | .trapUndef unused v => encodeTrap unused v

/-! ### The opcode table as data -/

/-- One row of R71's table: a word belongs to it when `word &&& mask = value`. -/
structure OpcodeRow where
  mnemonic : String
  value : Word
  mask : Word
deriving DecidableEq, Repr

/-- R71: `instr & mask = match` selects the row. -/
def OpcodeRow.selects (r : OpcodeRow) (w : Word) : Bool := w &&& r.mask == r.value

/-- R71: the first eighteen rows, selected by opcode and form bit. -/
def opcodeRowsPlain : List OpcodeRow :=
  [⟨"BR", 0x0000#16, 0xF000#16⟩, ⟨"ADD", 0x1000#16, 0xF020#16⟩, ⟨"ADDI", 0x1020#16, 0xF020#16⟩,
   ⟨"LD", 0x2000#16, 0xF000#16⟩, ⟨"ST", 0x3000#16, 0xF000#16⟩, ⟨"JSRR", 0x4000#16, 0xF800#16⟩,
   ⟨"JSR", 0x4800#16, 0xF800#16⟩, ⟨"AND", 0x5000#16, 0xF020#16⟩, ⟨"ANDI", 0x5020#16, 0xF020#16⟩,
   ⟨"LDR", 0x6000#16, 0xF000#16⟩, ⟨"STR", 0x7000#16, 0xF000#16⟩, ⟨"RTI", 0x8000#16, 0xF000#16⟩,
   ⟨"NOT", 0x9000#16, 0xF000#16⟩, ⟨"LDI", 0xA000#16, 0xF000#16⟩, ⟨"STI", 0xB000#16, 0xF000#16⟩,
   ⟨"JMP", 0xC000#16, 0xF000#16⟩, ⟨"RES", 0xD000#16, 0xF000#16⟩, ⟨"LEA", 0xE000#16, 0xF000#16⟩]

/-- R70, R71: the seven TRAP rows, TRAP_UNDEF matched last. -/
def opcodeRowsTrap : List OpcodeRow :=
  [⟨"TRAP_GETC", 0xF020#16, 0xF0FF#16⟩, ⟨"TRAP_OUT", 0xF021#16, 0xF0FF#16⟩, ⟨"TRAP_PUTS", 0xF022#16, 0xF0FF#16⟩,
   ⟨"TRAP_IN", 0xF023#16, 0xF0FF#16⟩, ⟨"TRAP_PUTSP", 0xF024#16, 0xF0FF#16⟩, ⟨"TRAP_HALT", 0xF025#16, 0xF0FF#16⟩,
   ⟨"TRAP_UNDEF", 0xF000#16, 0xF000#16⟩]

/-- R71: the 25 rows in the order of spec/opcode_table.json. -/
def opcodeTable : List OpcodeRow := opcodeRowsPlain ++ opcodeRowsTrap

/-- The row an instruction stands for, by the row's mnemonic. -/
def Instr.mnemonic : Instr → String
  | .br _ _ _ _ => "BR"
  | .add _ _ _ _ => "ADD"
  | .addi _ _ _ => "ADDI"
  | .ld _ _ => "LD"
  | .st _ _ => "ST"
  | .jsrr _ _ _ => "JSRR"
  | .jsr _ => "JSR"
  | .and _ _ _ _ => "AND"
  | .andi _ _ _ => "ANDI"
  | .ldr _ _ _ => "LDR"
  | .str _ _ _ => "STR"
  | .rti _ => "RTI"
  | .not _ _ _ => "NOT"
  | .ldi _ _ => "LDI"
  | .sti _ _ => "STI"
  | .jmp _ _ _ => "JMP"
  | .res _ => "RES"
  | .lea _ _ => "LEA"
  | .trapGetc _ => "TRAP_GETC"
  | .trapOut _ => "TRAP_OUT"
  | .trapPuts _ => "TRAP_PUTS"
  | .trapIn _ => "TRAP_IN"
  | .trapPutsp _ => "TRAP_PUTSP"
  | .trapHalt _ => "TRAP_HALT"
  | .trapUndef _ _ => "TRAP_UNDEF"

end Sys2Proof
end

