-- ==== Sys2Proof/Config.lean ====
section
/-! DEFINITION. The parameters of the core (spec/00_scope.md R4, spec/92_eei_decisions.md "Open parameters, gathered"):
the fixed constants, the types of the open ones, and the constants without a body that stand for what no document states. -/

namespace Sys2Proof

/-- R26: the condition-flag register holds exactly one of NEGATIVE, ZERO, POSITIVE. -/
inductive Cond where
  | n
  | z
  | p
deriving DecidableEq, Repr

/-- One character the environment supplies (R12, R13, U13). The oracle of `KeyAvailable` is held as data: the character
answers true to `KeyAvailable` only after `quietPolls` further polls have been answered false; a blocking `ReadChar` waits for
it and returns it whatever `quietPolls` is. Log entry 4. -/
structure Keystroke where
  /-- How many more `KeyAvailable` polls are answered false before this character is there. -/
  quietPolls : Nat
  /-- The 8-bit value `ReadChar` returns. -/
  char : Byte
deriving DecidableEq, Repr

/-- The parameters of R4 that stay the same for a whole run and that a step reads. `State` carries one `Config`, and no step
changes it: a claim about every state is a claim for every value of these parameters. Log entry 7. -/
structure Config where
  /-- R48, D15: `KBD_MMIO`, the keyboard address decoder is present. -/
  kbdMmio : Bool
  /-- D12: `HALT_NOTICE`, the bytes the HALT routine writes. -/
  haltNotice : List Byte
  /-- D12: `IN_PROMPT`, the bytes the IN routine writes before it reads. -/
  inPrompt : List Byte
deriving DecidableEq, Repr

namespace Config

/-- R4, R36: `PC_RESET`. -/
def pcReset : Word := 0x3000#16

/-- R4, R44: `KBSR_ADDR`, the keyboard status cell. -/
def kbsrAddr : Word := 0xFE00#16

/-- R4, R44: `KBDR_ADDR`, the keyboard data cell. -/
def kbdrAddr : Word := 0xFE02#16

/-- R4, R40: `MEMWORDS`. -/
def memWords : Nat := 65536

/-- `COND_RESET` is open (R37, D3). DESIGN CHOICE Z, which R37 lets a model offer. Log entry 1. -/
def condReset : Cond := .z

/-- `REG_RESET` is open (R37, D4). DESIGN CHOICE all zero, which R37 lets a model offer. Log entry 2. -/
def regReset : Vector Word 8 := Vector.replicate 8 0#16

/-- `HALT_NOTICE` as the hardware has it: no document gives its bytes (D12, N3), so it has no body. Log entry 3. -/
opaque someHaltNotice : List Byte

/-- `IN_PROMPT` as the hardware has it: no document gives its bytes (D12, N3), so it has no body. Log entry 3. -/
opaque someInPrompt : List Byte

/-- What the environment holds for the run that starts at reset (10_state.md, reset table: "whatever the environment
holds"), so it has no body. Log entry 5. -/
opaque someInput : List Keystroke

/-- The parameters of the machine right after reset: `KBD_MMIO` at its default `true` (R4, D15), the texts free. -/
def atReset : Config :=
  { kbdMmio := true, haltNotice := someHaltNotice, inPrompt := someInPrompt }

end Config

end Sys2Proof
end

