-- ==== Sys2Proof/Machine/State.lean ====
section
/-! DEFINITION. The state of the core (spec/10_state.md), the reasons a step can have no next state, and the state right
after reset. -/

namespace Sys2Proof.Machine

open Sys2Proof

/-- R40, R42: memory is 65536 cells of 16 bits, addressed by cell and never by byte. It is held as the list of the cells that
are not zero, as pairs of address and value with the addresses strictly rising; an address not listed reads as zero, which is
what every cell holds at process start (R38). Log entry 6. -/
abbrev Memory := List (Nat × Word)

/-- The canonical form of `Memory`: addresses strictly rising, every address below 65536, no listed cell zero. -/
abbrev Memory.wf (m : Memory) : Prop :=
  m.Pairwise (fun x y => x.1 < y.1) ∧ ∀ e ∈ m, e.1 < Config.memWords ∧ e.2 ≠ 0#16

/-- R150: the four fault causes, by the names and in the order of the table. -/
inductive FaultCause where
  /-- Cause 1: a word with `instr[15:12] = 0x8` (R138). -/
  | illegalOpcodeRti
  /-- Cause 2: a word with `instr[15:12] = 0xD` (R139). -/
  | illegalOpcodeRes
  /-- Cause 3: TRAP with a vector outside 0x20 to 0x25 (R137). -/
  | undefinedTrap
  /-- Cause 4: a PUTS or PUTSP scan that has read a nonzero cell at 0xFFFF (R133, R135). -/
  | stringOverrun
deriving DecidableEq, Repr

/-- R31, R150: the pair (cause, info); `info` is the instruction word that faulted. -/
structure FaultRecord where
  cause : FaultCause
  info : Word
deriving DecidableEq, Repr

/-- Every piece of state of spec/10_state.md, section 1, and the parameters of the run. -/
structure State where
  /-- R20: R0 to R7. -/
  regs : Vector Word 8
  /-- R23: the program counter; in a meaning it is already the incremented one (R10). -/
  pc : Word
  /-- R26: the condition-flag register. -/
  cond : Cond
  /-- R30: the run flag `RUN`. -/
  run : Bool
  /-- R31: the fault record `FAULT`. -/
  fault : Option FaultRecord
  /-- R40: the memory array `MEM`, the keyboard cells 0xFE00 and 0xFE02 (R32) among its cells. -/
  mem : Memory
  /-- R39 (a): the characters the environment supplies and no call has yet consumed, in order, to the end of the run. -/
  input : List Keystroke
  /-- R14, R39 (b): the console output stream, oldest byte first. -/
  console : List Byte
  /-- R4: the parameters of the run, which no step changes. -/
  cfg : Config
deriving DecidableEq, Repr

/-- Why a step has no next state. The faults of R150 are NOT here: they are next states, with `FAULT` written and `RUN`
cleared (R151). -/
inductive Fault where
  /-- Raised by GETC and IN only, when the environment supplies no further character: the blocking `ReadChar` never returns,
  so the step never completes (R13, R177, U6, U7: stuck; neither halted nor faulted). It carries the state in which the core
  waits: R7 written, the IN prompt on the console, `RUN` true and `FAULT` as it was. SAFE: nothing is claimed of a later state.
  Log entry 8. -/
  | blockedOnInput (waiting : State)
deriving DecidableEq, Repr

/-- Why an instruction has no meaning. No step of this model answers it: every instruction of the table has its meaning. -/
inductive Refusal where
  /-- Raised by an arm of `exec` whose instruction is not modelled yet; no arm is. SAFE: nothing is claimed of the
  instruction. -/
  | notModelled (mnemonic : String)
deriving DecidableEq, Repr

/-- R36, R37, R38, R170 (phase 1): the state after reset, before an image is loaded. `PC = 0x3000`, `RUN = true`,
`FAULT = none`, memory all zero, console empty as the spec states; `COND`, R0 to R7 and the input source as log entries 1, 2
and 5 say. -/
def State.reset : State where
  regs := Config.regReset
  pc := Config.pcReset
  cond := Config.condReset
  run := true
  fault := none
  mem := []
  input := Config.someInput
  console := []
  cfg := Config.atReset

end Sys2Proof.Machine
end

