-- ==== Sys2Proof/Machine/Flags.lean ====
section
/-! DEFINITION. The condition-flag register: its update function and what BR tests (spec/10_state.md R26 to R29,
spec/40_fetch_decode.md R84, spec/43_control.md R120). -/

namespace Sys2Proof.Machine

open Sys2Proof

/-- R84: the flag of a 16-bit value read as a signed number. -/
def condOf (v : Word) : Cond :=
  if v = 0x0000#16 then .z else if v[15] then .n else .p

/-- R84: `SetCC(v)`. -/
def State.setCC (s : State) (v : Word) : State := { s with cond := condOf v }

/-- R27, D2: `COND` as the one-hot value N = 0b100, Z = 0b010, P = 0b001. -/
def Cond.bits : Cond → BitVec 3
  | .n => 0b100#3
  | .z => 0b010#3
  | .p => 0b001#3

/-- R120: `instr[11:9]`, n above z above p. -/
def conditionField (n z p : Bool) : BitVec 3 := BitVec.ofBool n ++ BitVec.ofBool z ++ BitVec.ofBool p

/-- R120: `(instr[11:9] & COND) != 0`. -/
def branchTaken (n z p : Bool) (c : Cond) : Bool := (conditionField n z p &&& Cond.bits c) != 0b000#3

end Sys2Proof.Machine
end

