-- ==== Sys2Proof/Machine/Memory.lean ====
section
/-! DEFINITION. The memory array as a list in canonical form: reading and writing one cell (spec/20_memory.md R40, R43). -/

namespace Sys2Proof.Machine

open Sys2Proof

/-- R38, R40: the value of a cell; a cell that is not listed is zero. -/
def Memory.read : Memory → Nat → Word
  | [], _ => 0#16
  | (b, v) :: m, a => if b = a then v else Memory.read m a

/-- The memory with the cell at `a` not listed. -/
def Memory.erase (m : Memory) (a : Nat) : Memory := m.filter (fun e => e.1 ≠ a)

/-- A nonzero cell put at its place in the order; used on a list that does not hold `a`. -/
def Memory.insert : Memory → Nat → Word → Memory
  | [], a, v => [(a, v)]
  | (b, w) :: m, a, v => if a < b then (a, v) :: (b, w) :: m else (b, w) :: Memory.insert m a v

/-- R45: `MEM[a] <- v`, keeping the canonical form: a cell written with zero leaves the list. -/
def Memory.write (m : Memory) (a : Nat) (v : Word) : Memory :=
  if v = 0#16 then Memory.erase m a else Memory.insert (Memory.erase m a) a v

end Sys2Proof.Machine
end

