-- ==== Sys2Proof/Machine/Operands.lean ====
section
/-! DEFINITION. Operand forms: sign and zero extension, the second operand of ADD and AND, the bytes of a cell, the effective
addresses (spec/00_scope.md R7, R8; spec/30_encoding.md R64, R65; spec/42_load_store.md R107). -/

namespace Sys2Proof.Machine

open Sys2Proof

/-- R7: `sext_k`, the 16-bit two's-complement encoding of a `k`-bit field read as a signed number. -/
def sext {k : Nat} (f : BitVec k) : Word := f.signExtend 16

/-- R8: `zext_16`, an 8-bit value widened with bits 15 to 8 zero. -/
def zext16 (b : Byte) : Word := b.setWidth 16

/-- `v[7:0]`, the byte OUT and PUTS send (R132, R133). -/
def lowByte (v : Word) : Byte := v.extractLsb' 0 8

/-- `v[15:8]`, the second byte PUTSP sends (R135). -/
def highByte (v : Word) : Byte := v.extractLsb' 8 8

/-- R107: the PC-relative address; `pc` is the incremented program counter (R10), the sum is modulo 2^16 (R6). Also the
target of a taken BR (R120) and of JSR (R122). -/
def pcRelative {k : Nat} (pc : Word) (off : BitVec k) : Word := pc + sext off

/-- R107: the base plus offset address, modulo 2^16. -/
def basePlusOffset (base : Word) (off6 : BitVec 6) : Word := base + sext off6

/-- R133: PUTS writes the low byte of a cell. -/
def putsBytes (c : Word) : List Byte := [lowByte c]

/-- R135, D22: PUTSP writes the low byte of a cell always, then its high byte if that is not zero. -/
def putspBytes (c : Word) : List Byte :=
  if highByte c = 0#8 then [lowByte c] else [lowByte c, highByte c]

end Sys2Proof.Machine
end

