-- ==== Sys2Proof/Machine/Ops.lean ====
section
/-! DEFINITION. The named operations every meaning is written in: registers, memory cells, the memory primitives with the
keyboard decoder, the host primitives, fetch, and taking a fault. There is no return from a fault (spec/60_exceptions.md R155):
RTI is unsupported and faults. -/

namespace Sys2Proof.Machine

open Sys2Proof

/-! ### Registers (R9, R20) -/

/-- `x[i]`. No register is hard-wired (R20). -/
def State.getReg (s : State) (r : Reg) : Word := s.regs[r]

/-- `x[i] <- v`. -/
def State.setReg (s : State) (r : Reg) (v : Word) : State := { s with regs := s.regs.set r v }

/-- `PC <- t`. -/
def State.setPc (s : State) (t : Word) : State := { s with pc := t }

/-- R22, R85: the end of a flag-setting instruction: `x[DR] <- v`, then `SetCC(x[DR])` on the value read back. -/
def State.writeResult (s : State) (dr : Reg) (v : Word) : State :=
  (s.setReg dr v).setCC ((s.setReg dr v).getReg dr)

/-! ### Memory cells (R9, R40) -/

/-- `MEM[a]`, the raw cell, with no side effect. -/
def State.getCell (s : State) (a : Word) : Word := Memory.read s.mem a.toNat

/-- `MEM[a] <- v`. -/
def State.setCell (s : State) (a v : Word) : State := { s with mem := Memory.write s.mem a.toNat v }

/-! ### The host primitives (R12 to R15) -/

/-- R12: `KeyAvailable()`: the input source has a character that a `ReadChar()` issued now would return without waiting. -/
def State.keyAvailable (s : State) : Bool :=
  match s.input with
  | [] => false
  | k :: _ => decide (k.quietPolls = 0)

/-- The environment's side of a `KeyAvailable()` answered false: nothing is consumed, and the next character is one poll
nearer (U13: false may be followed by true). -/
def State.passQuietPoll (s : State) : State :=
  match s.input with
  | [] => s
  | k :: rest => { s with input := { k with quietPolls := k.quietPolls - 1 } :: rest }

/-- R13: `ReadChar()`: waits for the next character and consumes it; `none` when the environment supplies no further one,
and the call never returns. -/
def State.readChar (s : State) : Option (Byte × State) :=
  match s.input with
  | [] => none
  | k :: rest => some (k.char, { s with input := rest })

/-- R14: `ConsoleWrite(b)`. -/
def State.consoleWrite (s : State) (b : Byte) : State := { s with console := s.console ++ [b] }

/-- `for each byte b of bs, in order: ConsoleWrite(b)` (`Laws.consoleWriteAll_eq_foldl` says that it is that loop). -/
def State.consoleWriteAll (s : State) (bs : List Byte) : State := { s with console := s.console ++ bs }

/-- R15, R141, D23: `ConsoleFlush()` changes no architectural state; every byte is on the stream when it is written. -/
def State.consoleFlush (s : State) : State := s

/-! ### The memory primitives (R44, R45, R48) -/

/-- R44, R48: a read of `a` takes the keyboard path: the decoder is present and `a` is the status cell. -/
def State.pollsAt (s : State) (a : Word) : Bool := s.cfg.kbdMmio && a == Config.kbsrAddr

/-- R44, D7: the poll: a pending key sets the status cell to 0x8000 and moves the character into the data cell; otherwise the
status cell is cleared and the data cell keeps its value. `ReadChar` after `KeyAvailable` answered true always has a character
(`Laws.readChar_of_keyAvailable`), so the inner `none` never arises. -/
def State.pollKeyboard (s : State) : State :=
  if s.keyAvailable then
    match s.readChar with
    | some (c, s') => (s'.setCell Config.kbsrAddr 0x8000#16).setCell Config.kbdrAddr (zext16 c)
    | none => s
  else s.passQuietPoll.setCell Config.kbsrAddr 0x0000#16

/-- The state a read of `a` leaves: a poll when it takes the keyboard path, else no change. -/
def State.afterRead (s : State) (a : Word) : State := if s.pollsAt a then s.pollKeyboard else s

/-- R44: `MemRead(a)`: the value read and the state after the read. -/
def State.memRead (s : State) (a : Word) : Word × State := ((s.afterRead a).getCell a, s.afterRead a)

/-- R45: `MemWrite(a, v)`: a plain store at every address. -/
def State.memWrite (s : State) (a v : Word) : State := s.setCell a v

/-! ### Fetch (R81, R82) -/

/-- R81, R82: `instr <- MemRead(PC)`, then `PC <- PC + 1` modulo 2^16. -/
def State.fetch (s : State) : Word × State :=
  ((s.memRead s.pc).1, (s.memRead s.pc).2.setPc (s.pc + 1#16))

/-! ### Taking a fault (R151) -/

/-- R151: `raise Fault(cause, info)`: `FAULT <- (cause, info)`; `RUN <- false`; nothing else is saved and control goes
nowhere. -/
def State.raiseFault (s : State) (cause : FaultCause) (info : Word) : State :=
  { s with fault := some ⟨cause, info⟩, run := false }

/-! ### TRAP, the common parts (R130, R133, R135) -/

/-- R130: `x[7] <- PC`, first, for every vector; `COND` is not updated. -/
def State.enterTrap (s : State) : State := s.setReg 7 s.pc

/-- R134, R131: the end of GETC and IN: `x[0] <- zext_16(c)`, then `SetCC(x[0])`. -/
def State.deliverChar (s : State) (c : Byte) : State := s.writeResult 0 (zext16 c)

/-- R136: `RUN <- false`. -/
def State.stop (s : State) : State := { s with run := false }

/-- R136, D12: the bytes of `HALT_NOTICE`. -/
def State.haltNotice (s : State) : List Byte := s.cfg.haltNotice

/-- R134, D12: the bytes of `IN_PROMPT`. -/
def State.inPrompt (s : State) : List Byte := s.cfg.inPrompt

/-- The loop of PUTS and PUTSP (R133, R135) from address `a`; `bytesOf` gives the bytes of one nonzero cell and `instr` is the
instruction word. The first argument is the number of cells above `a`, so it is 0 exactly when `a = 0xFFFF`, where a nonzero
cell raises StringOverrun after its bytes are written (D11). -/
def State.emitString (bytesOf : Word → List Byte) (instr : Word) : Nat → Word → State → State
  | 0, a, s =>
    if (s.memRead a).1 = 0x0000#16 then (s.memRead a).2.consoleFlush
    else ((s.memRead a).2.consoleWriteAll (bytesOf (s.memRead a).1)).raiseFault .stringOverrun instr
  | above + 1, a, s =>
    if (s.memRead a).1 = 0x0000#16 then (s.memRead a).2.consoleFlush
    else State.emitString bytesOf instr above (a + 1#16)
      ((s.memRead a).2.consoleWriteAll (bytesOf (s.memRead a).1))

/-- The number of cells above address `a`. -/
def cellsAbove (a : Word) : Nat := 0xFFFF - a.toNat

end Sys2Proof.Machine
end

