-- ==== Sys2Proof/Machine/Alu.lean ====
section
/-! DEFINITION. The meanings of ADD, AND and NOT (spec/41_alu.md). `s.pc` is already incremented (R82); none of them writes it,
reads memory or raises a fault. -/

namespace Sys2Proof.Machine

open Sys2Proof

/-- R90: `x[DR] <- x[SR1] + x[SR2]`, modulo 2^16, then `SetCC`. -/
def execAdd (dr sr1 sr2 : Reg) (s : State) : Host.Outcome State Fault Refusal :=
  .next (s.writeResult dr (s.getReg sr1 + s.getReg sr2))

/-- R91: `x[DR] <- x[SR1] + sext_5(imm5)`, then `SetCC`. -/
def execAddi (dr sr1 : Reg) (imm5 : BitVec 5) (s : State) : Host.Outcome State Fault Refusal :=
  .next (s.writeResult dr (s.getReg sr1 + sext imm5))

/-- R92: `x[DR] <- x[SR1] & x[SR2]`, then `SetCC`. -/
def execAnd (dr sr1 sr2 : Reg) (s : State) : Host.Outcome State Fault Refusal :=
  .next (s.writeResult dr (s.getReg sr1 &&& s.getReg sr2))

/-- R93: `x[DR] <- x[SR1] & sext_5(imm5)`, then `SetCC`. -/
def execAndi (dr sr1 : Reg) (imm5 : BitVec 5) (s : State) : Host.Outcome State Fault Refusal :=
  .next (s.writeResult dr (s.getReg sr1 &&& sext imm5))

/-- R94: `x[DR] <- ~x[SR]`, then `SetCC`. -/
def execNot (dr sr : Reg) (s : State) : Host.Outcome State Fault Refusal :=
  .next (s.writeResult dr (~~~(s.getReg sr)))

end Sys2Proof.Machine
end

