-- ==== Sys2Proof/Machine/Control.lean ====
section
/-! DEFINITION. The meanings of BR, JMP, JSR and JSRR (spec/43_control.md). `s.pc` is already incremented (R10); none of them
accesses memory, changes `COND` or raises a fault. -/

namespace Sys2Proof.Machine

open Sys2Proof

/-- R120: `if (instr[11:9] & COND) != 0: PC <- PC + sext_9(off9)`. -/
def execBr (n z p : Bool) (off9 : BitVec 9) (s : State) : Host.Outcome State Fault Refusal :=
  if branchTaken n z p s.cond then .next (s.setPc (pcRelative s.pc off9)) else .next s

/-- R121: `PC <- x[BaseR]`. -/
def execJmp (baser : Reg) (s : State) : Host.Outcome State Fault Refusal :=
  .next (s.setPc (s.getReg baser))

/-- R122: `x[7] <- PC`; `PC <- PC + sext_11(off11)`. -/
def execJsr (off11 : BitVec 11) (s : State) : Host.Outcome State Fault Refusal :=
  let s' := s.setReg 7 s.pc
  .next (s'.setPc (pcRelative s'.pc off11))

/-- R123, D10: `x[7] <- PC`; `PC <- x[BaseR]`, the base read after the write of R7, so `JSRR R7` falls through. -/
def execJsrr (baser : Reg) (s : State) : Host.Outcome State Fault Refusal :=
  let s' := s.setReg 7 s.pc
  .next (s'.setPc (s'.getReg baser))

end Sys2Proof.Machine
end

