-- ==== Sys2Proof/Machine/LoadStore.lean ====
section
/-! DEFINITION. The meanings of LD, ST, LDR, STR, LDI, STI and LEA (spec/42_load_store.md). `s.pc` is already incremented (R10);
none of them writes it or raises a fault. Every read goes through `memRead` (R46). -/

namespace Sys2Proof.Machine

open Sys2Proof

/-- R100: `ea <- PC + sext_9(off9)`; `x[DR] <- MemRead(ea)`; `SetCC`. -/
def execLd (dr : Reg) (off9 : BitVec 9) (s : State) : Host.Outcome State Fault Refusal :=
  let r := s.memRead (pcRelative s.pc off9)
  .next (r.2.writeResult dr r.1)

/-- R101: `ea <- PC + sext_9(off9)`; `MemWrite(ea, x[SR])`. -/
def execSt (sr : Reg) (off9 : BitVec 9) (s : State) : Host.Outcome State Fault Refusal :=
  .next (s.memWrite (pcRelative s.pc off9) (s.getReg sr))

/-- R102: `ea <- x[BaseR] + sext_6(off6)`; `x[DR] <- MemRead(ea)`; `SetCC`. -/
def execLdr (dr baser : Reg) (off6 : BitVec 6) (s : State) : Host.Outcome State Fault Refusal :=
  let r := s.memRead (basePlusOffset (s.getReg baser) off6)
  .next (r.2.writeResult dr r.1)

/-- R103: `ea <- x[BaseR] + sext_6(off6)`; `MemWrite(ea, x[SR])`. -/
def execStr (sr baser : Reg) (off6 : BitVec 6) (s : State) : Host.Outcome State Fault Refusal :=
  .next (s.memWrite (basePlusOffset (s.getReg baser) off6) (s.getReg sr))

/-- R104: `p <- MemRead(PC + sext_9(off9))`; `x[DR] <- MemRead(p)`; `SetCC`. -/
def execLdi (dr : Reg) (off9 : BitVec 9) (s : State) : Host.Outcome State Fault Refusal :=
  let p := s.memRead (pcRelative s.pc off9)
  let r := p.2.memRead p.1
  .next (r.2.writeResult dr r.1)

/-- R105: `p <- MemRead(PC + sext_9(off9))`; `MemWrite(p, x[SR])`. -/
def execSti (sr : Reg) (off9 : BitVec 9) (s : State) : Host.Outcome State Fault Refusal :=
  let p := s.memRead (pcRelative s.pc off9)
  .next (p.2.memWrite p.1 (p.2.getReg sr))

/-- R106: `x[DR] <- PC + sext_9(off9)`, the address itself, no memory access (R58); `SetCC`. -/
def execLea (dr : Reg) (off9 : BitVec 9) (s : State) : Host.Outcome State Fault Refusal :=
  .next (s.writeResult dr (pcRelative s.pc off9))

end Sys2Proof.Machine
end

