-- ==== Sys2Proof/Machine/Trap.lean ====
section
/-! DEFINITION. The meanings of TRAP with its six routines, TRAP with an undefined vector, RTI and RES (spec/44_trap_system.md).
The routines are part of the core: no trap table is read (R140) and no routine writes `PC` (R130). A fault is a next state
(spec/60_exceptions.md R151); its `info` is the whole instruction word, unused bits included. -/

namespace Sys2Proof.Machine

open Sys2Proof

/-- R131: `x[7] <- PC`; `c <- ReadChar()`, which blocks; `x[0] <- zext_16(c)`; `SetCC(x[0])`. -/
def execTrapGetc (s : State) : Host.Outcome State Fault Refusal :=
  match s.enterTrap.readChar with
  | some (c, s') => .next (s'.deliverChar c)
  | none => .fault (.blockedOnInput s.enterTrap)

/-- R132: `x[7] <- PC`; `ConsoleWrite(x[0][7:0])`; `ConsoleFlush()`. -/
def execTrapOut (s : State) : Host.Outcome State Fault Refusal :=
  let s' := s.enterTrap
  .next (s'.consoleWrite (lowByte (s'.getReg 0))).consoleFlush

/-- R133: `x[7] <- PC`, then the string at `x[0]`, one character a cell in its low byte, up to a zero cell. -/
def execTrapPuts (unused : BitVec 4) (s : State) : Host.Outcome State Fault Refusal :=
  let s' := s.enterTrap
  .next (s'.emitString putsBytes (encode (.trapPuts unused)) (cellsAbove (s'.getReg 0)) (s'.getReg 0))

/-- R134: `x[7] <- PC`; the prompt; `c <- ReadChar()`, which blocks with the prompt written; the echo; `x[0] <- zext_16(c)`;
`SetCC(x[0])`. -/
def execTrapIn (s : State) : Host.Outcome State Fault Refusal :=
  let s' := s.enterTrap.consoleWriteAll s.inPrompt
  match s'.readChar with
  | some (c, s'') => .next ((s''.consoleWrite c).consoleFlush.deliverChar c)
  | none => .fault (.blockedOnInput s')

/-- R135: as PUTS, two characters a cell: low byte, then high byte if nonzero. -/
def execTrapPutsp (unused : BitVec 4) (s : State) : Host.Outcome State Fault Refusal :=
  let s' := s.enterTrap
  .next (s'.emitString putspBytes (encode (.trapPutsp unused)) (cellsAbove (s'.getReg 0)) (s'.getReg 0))

/-- R136: `x[7] <- PC`; the halt notice; `ConsoleFlush()`; `RUN <- false`. -/
def execTrapHalt (s : State) : Host.Outcome State Fault Refusal :=
  let s' := s.enterTrap
  .next (s'.consoleWriteAll s'.haltNotice).consoleFlush.stop

/-- R137, D9: `x[7] <- PC`; `raise Fault(UndefinedTrap, instr)`. -/
def execTrapUndef (unused : BitVec 4) (trapvect8 : BitVec 8) (s : State) : Host.Outcome State Fault Refusal :=
  .next (s.enterTrap.raiseFault .undefinedTrap (encode (.trapUndef unused trapvect8)))

/-- R138: `raise Fault(IllegalOpcode_RTI, instr)`; R7 is not written. -/
def execRti (unused : BitVec 12) (s : State) : Host.Outcome State Fault Refusal :=
  .next (s.raiseFault .illegalOpcodeRti (encode (.rti unused)))

/-- R139: `raise Fault(IllegalOpcode_RES, instr)`; R7 is not written. -/
def execRes (unused : BitVec 12) (s : State) : Host.Outcome State Fault Refusal :=
  .next (s.raiseFault .illegalOpcodeRes (encode (.res unused)))

end Sys2Proof.Machine
end

