-- ==== Sys2Proof/Machine/Dispatch.lean ====
section
/-! DEFINITION. The dispatch of an instruction to its meaning (spec/40_fetch_decode.md R83). -/

namespace Sys2Proof.Machine

open Sys2Proof

def exec (i : Instr) (s : State) : Host.Outcome State Fault Refusal :=
  match i with
  | .br n z p off9 => Sys2Proof.Machine.execBr n z p off9 s
  | .add dr sr1 sr2 _ => Sys2Proof.Machine.execAdd dr sr1 sr2 s
  | .addi dr sr1 imm5 => Sys2Proof.Machine.execAddi dr sr1 imm5 s
  | .ld dr off9 => Sys2Proof.Machine.execLd dr off9 s
  | .st sr off9 => Sys2Proof.Machine.execSt sr off9 s
  | .jsrr _ baser _ => Sys2Proof.Machine.execJsrr baser s
  | .jsr off11 => Sys2Proof.Machine.execJsr off11 s
  | .and dr sr1 sr2 _ => Sys2Proof.Machine.execAnd dr sr1 sr2 s
  | .andi dr sr1 imm5 => Sys2Proof.Machine.execAndi dr sr1 imm5 s
  | .ldr dr baser off6 => Sys2Proof.Machine.execLdr dr baser off6 s
  | .str sr baser off6 => Sys2Proof.Machine.execStr sr baser off6 s
  | .rti unused => Sys2Proof.Machine.execRti unused s
  | .not dr sr _ => Sys2Proof.Machine.execNot dr sr s
  | .ldi dr off9 => Sys2Proof.Machine.execLdi dr off9 s
  | .sti sr off9 => Sys2Proof.Machine.execSti sr off9 s
  | .jmp _ baser _ => Sys2Proof.Machine.execJmp baser s
  | .res unused => Sys2Proof.Machine.execRes unused s
  | .lea dr off9 => Sys2Proof.Machine.execLea dr off9 s
  | .trapGetc _ => Sys2Proof.Machine.execTrapGetc s
  | .trapOut _ => Sys2Proof.Machine.execTrapOut s
  | .trapPuts unused => Sys2Proof.Machine.execTrapPuts unused s
  | .trapIn _ => Sys2Proof.Machine.execTrapIn s
  | .trapPutsp unused => Sys2Proof.Machine.execTrapPutsp unused s
  | .trapHalt _ => Sys2Proof.Machine.execTrapHalt s
  | .trapUndef unused trapvect8 => Sys2Proof.Machine.execTrapUndef unused trapvect8 s

end Sys2Proof.Machine
end

