-- ==== Sys2Proof/Machine/Loader.lean ====
section
/-! DEFINITION. What the host does to memory before the run (spec/20_memory.md R56, spec/70_reset_and_hazards.md R170, R171):
the effect of loading images. The reading of files is outside the core (spec/00_scope.md R3). -/

namespace Sys2Proof.Machine

open Sys2Proof

/-- R56: an origin address and the words placed from it on. -/
structure Image where
  origin : Word
  words : List Word
deriving DecidableEq, Repr

/-- R56: `MEM[o + k] <- wk` up to address 0xFFFF; trailing words beyond that are not read, the load does not wrap. -/
def State.loadWords : Nat → List Word → State → State
  | _, [], s => s
  | a, w :: ws, s => if a < Config.memWords then State.loadWords (a + 1) ws (s.setCell (BitVec.ofNat 16 a) w) else s

/-- R56, R171: one image, placed by its own origin. -/
def State.loadImage (s : State) (i : Image) : State := State.loadWords i.origin.toNat i.words s

/-- R56, R171: the images in the order the host was given them, a later one over an earlier one. -/
def State.loadImages (s : State) (images : List Image) : State := images.foldl State.loadImage s

/-- R170: the state at the start of the run: reset, then load. -/
def State.boot (images : List Image) : State := State.reset.loadImages images

/-- R171: the bytes of a file read as big-endian words; an odd number of bytes gives none (U18: refuse). -/
def wordsOfBytes : List Byte → Option (List Word)
  | [] => some []
  | [_] => none
  | hi :: lo :: rest => (wordsOfBytes rest).map (fun ws => (hi ++ lo) :: ws)

/-- R171: word 0 is the origin, the rest are the image's words; a file with fewer than two words is not read (N13). -/
def imageOfBytes (bytes : List Byte) : Option Image :=
  match wordsOfBytes bytes with
  | some (origin :: w :: ws) => some ⟨origin, w :: ws⟩
  | _ => none

end Sys2Proof.Machine
end

