-- ==== Sys2Proof/Machine/Step.lean ====
section
/-! DEFINITION. One step of the core (spec/40_fetch_decode.md R80). -/

namespace Sys2Proof.Machine

open Sys2Proof

/-- R80: while `RUN` is true: fetch, increment, decode, execute. When `RUN` is false the core performs nothing, for ever: all
state keeps its value (R86). Log entry 9. -/
def step (s : State) : Host.Outcome State Fault Refusal :=
  if s.run then exec (decode s.fetch.1) s.fetch.2 else .next s

/-- The state `s` made ready so that its very next step fetches and runs the one-word instruction `w`: the word stands in the
cell at `PC`, and `RUN` is true. A fetch at the keyboard status cell would poll and overwrite the word (R44, R81), so there `PC`
is first set to 0x3000. It stands for the host's load of a program (R170). Log entry 11. -/
def State.withFetchWord (s : State) (nbits w : Nat) : State :=
  let pc := if s.pollsAt s.pc then Config.pcReset else s.pc
  { s.setCell pc (BitVec.ofNat 16 (w % 2 ^ nbits)) with pc := pc, run := true }

end Sys2Proof.Machine
end

