-- ==== Sys2Proof/Safety.lean ====
section
/-! DEFINITION. What counts as a good state and as a good end of a run (spec/60_exceptions.md R152,
spec/40_fetch_decode.md R86). -/

namespace Sys2Proof.Safety

open Sys2Proof Sys2Proof.Machine

/-- What every step keeps: memory in its canonical form, and a recorded fault only in a stopped core (R151). -/
def Inv (s : State) : Prop := s.mem.wf ∧ (s.fault ≠ none → s.run = false)

/-- R86 (a), R152: the run has ended normally: stopped, with no fault. -/
def EndedNormally (s : State) : Prop := s.run = false ∧ s.fault = none

/-- R86 (b), R152: the run has ended in a fault. -/
def EndedInFault (s : State) : Prop := s.run = false ∧ s.fault ≠ none

/-- R177: the run hangs in a blocking read: the step has no next state, and the core is neither halted nor faulted. -/
def Hangs (s : State) : Prop := ∃ waiting : State, step s = .fault (.blockedOnInput waiting)

/-- A run of `k` steps from `s` that ends normally. -/
def RunsTo (s : State) (k : Nat) (t : State) : Prop := core.run k s = .next t ∧ EndedNormally t

end Sys2Proof.Safety
end

