-- ==== Sys2Proof/Certificates/Slice0/Obligations.lean ====
section
/-! DEFINITION. The statements for the provers. Each docstring names the rule of spec/ it formalises; a statement that rests on
a choice of the spec's own or of the model names the decision or the log entry. `exec` runs an instruction in the state after
the fetch increment (R10), so `s.pc` is the address after the instruction in every statement about `exec`. -/

namespace Sys2Proof.Claims

open Sys2Proof Sys2Proof.Machine

/-! ### What stays the same -/

/-- Every general register but those listed keeps its value. -/
def RegsKept (but : List Reg) (s t : State) : Prop := ∀ r, r ∉ but → t.getReg r = s.getReg r

/-- Every memory cell but those listed keeps its value. -/
def CellsKept (but : List Word) (s t : State) : Prop := ∀ a, a ∉ but → t.getCell a = s.getCell a

/-- `RUN`, `FAULT` and the parameters of the run keep their values. -/
def ControlKept (s t : State) : Prop := t.run = s.run ∧ t.fault = s.fault ∧ t.cfg = s.cfg

/-- The input source and the console stream keep their values. -/
def StreamsKept (s t : State) : Prop := t.input = s.input ∧ t.console = s.console

/-- R32: the two keyboard cells. -/
def keyboardCells : List Word := [0xFE00#16, 0xFE02#16]

/-- R44, R48: a read of `a` takes the keyboard path. -/
def Polls (s : State) (a : Word) : Prop := s.cfg.kbdMmio = true ∧ a = 0xFE00#16

/-- R84, as its sentence says it: 0x0000 gives Z, 0x0001 to 0x7FFF give P, 0x8000 to 0xFFFF give N. -/
def flagOf (v : Word) : Cond := if v.toNat = 0 then .z else if v.toNat ≤ 0x7FFF then .p else .n

/-- What ADD, AND, NOT and LEA do with a computed value: DR and `COND` take it, all else stays. -/
def OnlyResult (dr : Reg) (v : Word) (s t : State) : Prop :=
  t.getReg dr = v ∧ t.cond = flagOf v ∧ RegsKept [dr] s t ∧ t.pc = s.pc ∧ CellsKept [] s t ∧ StreamsKept s t ∧
    ControlKept s t

/-- What LD, LDR and LDI do with a loaded value `v` when the reads left memory and input as in `u`. -/
def OnlyLoaded (dr : Reg) (v : Word) (s u t : State) : Prop :=
  t.getReg dr = v ∧ t.cond = flagOf v ∧ RegsKept [dr] s t ∧ t.pc = s.pc ∧ CellsKept [] u t ∧ t.input = u.input ∧
    t.console = s.console ∧ ControlKept s t

/-- What ST and STR do: one cell is stored, all else stays. -/
def OnlyStored (a v : Word) (s t : State) : Prop :=
  t.getCell a = v ∧ CellsKept [a] s t ∧ RegsKept [] s t ∧ t.cond = s.cond ∧ t.pc = s.pc ∧ StreamsKept s t ∧
    ControlKept s t

/-- What BR and JMP do: the program counter is `pc`, all else stays. -/
def OnlyPc (pc : Word) (s t : State) : Prop :=
  t.pc = pc ∧ RegsKept [] s t ∧ t.cond = s.cond ∧ CellsKept [] s t ∧ StreamsKept s t ∧ ControlKept s t

/-- What JSR and JSRR do: R7 takes the return address, the program counter is `pc`, all else stays. -/
def OnlyCall (pc : Word) (s t : State) : Prop :=
  t.getReg 7 = s.pc ∧ t.pc = pc ∧ RegsKept [7] s t ∧ t.cond = s.cond ∧ CellsKept [] s t ∧ StreamsKept s t ∧
    ControlKept s t

/-! ### Reading consecutive cells, as PUTS and PUTSP do -/

/-- The values of `n` reads at `a`, `a + 1`, ... through `MemRead`, and the state they leave. -/
def readRun : Nat → Word → State → List Word × State
  | 0, _, s => ([], s)
  | n + 1, a, s =>
    ((s.memRead a).1 :: (readRun n (a + 1#16) (s.memRead a).2).1, (readRun n (a + 1#16) (s.memRead a).2).2)

/-- R133: one byte a cell, its low byte. -/
def lowBytes (cs : List Word) : List Byte := cs.map (fun c => c.extractLsb' 0 8)

/-- R135: two bytes a cell, low then high, the high one only if nonzero. -/
def packedBytes (cs : List Word) : List Byte :=
  cs.flatMap (fun c => c.extractLsb' 0 8 :: if c.extractLsb' 8 8 = 0#8 then [] else [c.extractLsb' 8 8])

/-- The end of a PUTS or PUTSP at a zero cell, when the reads left memory and input as in `u` and `bs` was written. -/
def OnlyPrinted (bs : List Byte) (s u t : State) : Prop :=
  t.console = s.console ++ bs ∧ t.getReg 7 = s.pc ∧ RegsKept [7] s t ∧ t.cond = s.cond ∧ t.pc = s.pc ∧
    CellsKept [] u t ∧ t.input = u.input ∧ ControlKept s t

/-- The end of a PUTS or PUTSP whose scan read a nonzero cell at 0xFFFF. -/
def PrintedThenOverrun (bs : List Byte) (instr : Word) (s u t : State) : Prop :=
  t.console = s.console ++ bs ∧ t.run = false ∧ t.fault = some ⟨.stringOverrun, instr⟩ ∧ t.getReg 7 = s.pc ∧
    RegsKept [7] s t ∧ t.cond = s.cond ∧ t.pc = s.pc ∧ CellsKept [] u t ∧ t.input = u.input ∧ t.cfg = s.cfg

/-- A fault: the record and `RUN`, all else as in `u`. -/
def OnlyFaulted (cause : FaultCause) (info : Word) (u t : State) : Prop :=
  t.fault = some ⟨cause, info⟩ ∧ t.run = false ∧ RegsKept [] u t ∧ t.pc = u.pc ∧ t.cond = u.cond ∧ CellsKept [] u t ∧
    StreamsKept u t ∧ t.cfg = u.cfg

/-! ### What an instruction may change, by its row -/

/-- The general registers an instruction writes (10_state.md section 1, R21). -/
def writtenRegs : Instr → List Reg
  | .br _ _ _ _ => []
  | .add dr _ _ _ => [dr]
  | .addi dr _ _ => [dr]
  | .ld dr _ => [dr]
  | .st _ _ => []
  | .jsrr _ _ _ => [7]
  | .jsr _ => [7]
  | .and dr _ _ _ => [dr]
  | .andi dr _ _ => [dr]
  | .ldr dr _ _ => [dr]
  | .str _ _ _ => []
  | .rti _ => []
  | .not dr _ _ => [dr]
  | .ldi dr _ => [dr]
  | .sti _ _ => []
  | .jmp _ _ _ => []
  | .res _ => []
  | .lea dr _ => [dr]
  | .trapGetc _ => [0, 7]
  | .trapOut _ => [7]
  | .trapPuts _ => [7]
  | .trapIn _ => [0, 7]
  | .trapPutsp _ => [7]
  | .trapHalt _ => [7]
  | .trapUndef _ _ => [7]

/-- R28, R85: the register whose new value a flag-setting instruction gives to `SetCC`. -/
def flagReg : Instr → Option Reg
  | .add dr _ _ _ => some dr
  | .addi dr _ _ => some dr
  | .and dr _ _ _ => some dr
  | .andi dr _ _ => some dr
  | .not dr _ _ => some dr
  | .ld dr _ => some dr
  | .ldr dr _ _ => some dr
  | .ldi dr _ => some dr
  | .lea dr _ => some dr
  | .trapGetc _ => some 0
  | .trapIn _ => some 0
  | _ => none

/-- R57: the cell an instruction stores to, from the state after its fetch. -/
def storeAddr (i : Instr) (s : State) : List Word :=
  match i with
  | .st _ off9 => [s.pc + sext off9]
  | .str _ baser off6 => [s.getReg baser + sext off6]
  | .sti _ off9 => [(s.memRead (s.pc + sext off9)).1]
  | _ => []

/-- R101, R103, R105: the register an instruction stores. -/
def storedReg : Instr → Option Reg
  | .st sr _ => some sr
  | .str sr _ _ => some sr
  | .sti sr _ => some sr
  | _ => none

/-- R57: the addresses PUTS and PUTSP scan from `a` on; the first argument is the number of cells above `a`. -/
def scanAddrs : Nat → Word → State → List Word
  | 0, a, _ => [a]
  | k + 1, a, s => if s.getCell a = 0#16 then [a] else a :: scanAddrs k (a + 1#16) s

/-- R57: the addresses an instruction reads after its fetch, when none of them takes the keyboard path. -/
def readAddrs (i : Instr) (s : State) : List Word :=
  match i with
  | .ld _ off9 => [s.pc + sext off9]
  | .ldr _ baser off6 => [s.getReg baser + sext off6]
  | .ldi _ off9 => [s.pc + sext off9, s.getCell (s.pc + sext off9)]
  | .sti _ off9 => [s.pc + sext off9]
  | .trapPuts _ => scanAddrs (0xFFFF - (s.getReg 0).toNat) (s.getReg 0) s
  | .trapPutsp _ => scanAddrs (0xFFFF - (s.getReg 0).toNat) (s.getReg 0) s
  | _ => []

/-- GETC and IN, the instructions that call `ReadChar` themselves (R13). -/
def asksForChar : Instr → Bool
  | .trapGetc _ => true
  | .trapIn _ => true
  | _ => false

/-- R124, R130: the instructions that put the return address in R7. -/
def linksR7 : Instr → Bool
  | .jsr _ => true
  | .jsrr _ _ _ => true
  | .trapGetc _ => true
  | .trapOut _ => true
  | .trapPuts _ => true
  | .trapIn _ => true
  | .trapPutsp _ => true
  | .trapHalt _ => true
  | .trapUndef _ _ => true
  | _ => false

/-- The instructions that write to the console (R39). -/
def writesConsole : Instr → Bool
  | .trapOut _ => true
  | .trapPuts _ => true
  | .trapIn _ => true
  | .trapPutsp _ => true
  | .trapHalt _ => true
  | _ => false

/-- R24: the instructions that may replace the incremented program counter. -/
def transfersControl : Instr → Bool
  | .br _ _ _ _ => true
  | .jmp _ _ _ => true
  | .jsr _ => true
  | .jsrr _ _ _ => true
  | _ => false

/-- The characters still to come, in order. -/
def charsOf (s : State) : List Byte := s.input.map Keystroke.char

/-- An outcome with the state it holds, the next one or the one in which the core waits, changed by `f`. -/
def mapState (f : State → State) :
    Host.Outcome State Fault Refusal → Host.Outcome State Fault Refusal
  | .next t => .next (f t)
  | .fault (.blockedOnInput b) => .fault (.blockedOnInput (f b))
  | .refused r => .refused r

/-- A state with another condition flag. -/
def withCond (c : Cond) (s : State) : State := { s with cond := c }

/-- A state with another input source. -/
def withInput (inp : List Keystroke) (s : State) : State := { s with input := inp }

/-- A state without its condition flag. -/
def eraseCond (s : State) : State := { s with cond := .z }

/-- A state without the instruction word a fault recorded: the cause alone is kept. -/
def eraseInfo (s : State) : State := { s with fault := s.fault.map (fun f => ⟨f.cause, 0#16⟩) }

end Sys2Proof.Claims

open Sys2Proof Sys2Proof.Machine Sys2Proof.Safety Sys2Proof.Claims

/-! ### Encoding and decoding -/

/-- Words written out from the formats of R62 and the examples of the instruction rules decode to what they stand for. The
opcode numbers are the spec's own decision D1 (log entry 12), the condition bits its D2 (log entry 13); that unused bits are
fields is the model's choice (log entry 10). -/
def Obligations.WrittenOutWordsDecode : Prop :=
  decode 0b0000101111111101#16 = .br true false true 0b111111101#9 ∧
  decode 0b0001010011000100#16 = .add 2 3 4 0b00#2 ∧
  decode 0b0010001000001001#16 = .ld 1 0b000001001#9 ∧
  decode 0b0100000111000000#16 = .jsrr 0b00#2 7 0b000000#6 ∧
  decode 0b0100100000000011#16 = .jsr 0b00000000011#11 ∧
  decode 0b0111100011111111#16 = .str 4 3 0b111111#6 ∧
  decode 0b1001010010111111#16 = .not 2 2 0b111111#6 ∧
  decode 0b1111101000100000#16 = .trapGetc 0b1010#4 ∧
  decode 0b1111000000100110#16 = .trapUndef 0b0000#4 0x26#8

/-- Every well-formed instruction, with every value of every field, is what its own word decodes to: no bit of an encoding is
dropped (R62, R70). That the bits a format does not use are fields of the instruction is the model's choice (log entry 10);
the opcode numbers are the spec's own decision D1 (log entry 12). -/
def Obligations.DecodeInvertsEncode : Prop := ∀ i : Instr, i.wf = true → decode (encode i) = i

/-- Every word is the word of the instruction it decodes to, and that instruction is well formed: no two words decode alike.
This is the model's choice and no rule of the spec: the bits that a format does not use, which R66 does not examine, are kept
as fields of the instruction (log entry 10), because a fault records the whole word (R150). The opcode numbers are the spec's
own decision D1 (log entry 12). -/
def Obligations.EncodeInvertsDecode : Prop := ∀ w : Word, (decode w).wf = true ∧ encode (decode w) = w

/-- R70, over the table of R71, whose opcode numbers are the spec's own decision D1 (log entry 12): every word decodes to
exactly one row: the rows but TRAP_UNDEF are pairwise disjoint, and the decoder answers the first row of the table that
selects the word, TRAP_UNDEF last. -/
def Obligations.EveryWordDecodesToItsTableRow : Prop :=
  (∀ w : Word, ∀ r ∈ opcodeTable.dropLast, ∀ q ∈ opcodeTable.dropLast,
    r.selects w = true → q.selects w = true → r = q) ∧
  (∀ w : Word, (opcodeTable.find? (fun r => r.selects w)).map OpcodeRow.mnemonic = some (decode w).mnemonic)

/-- R66, with the spec's own decision D5: bits no format uses change nothing that an instruction does, but for the instruction
word that a fault records. D5 is log entry 14. That those bits are fields of the instruction is the model's choice (log entry
10), and so is the waiting outcome of GETC and IN (log entry 8); the record is the spec's own decision D8 (log entry 16). -/
def Obligations.UnusedBitsChangeNoEffect : Prop :=
  ∀ s : State,
    (∀ dr a b u u', exec (.add dr a b u) s = exec (.add dr a b u') s) ∧
    (∀ dr a b u u', exec (.and dr a b u) s = exec (.and dr a b u') s) ∧
    (∀ dr r u u', exec (.not dr r u) s = exec (.not dr r u') s) ∧
    (∀ r h h' l l', exec (.jmp h r l) s = exec (.jmp h' r l') s) ∧
    (∀ r h h' l l', exec (.jsrr h r l) s = exec (.jsrr h' r l') s) ∧
    (∀ u u', exec (.trapGetc u) s = exec (.trapGetc u') s ∧ exec (.trapOut u) s = exec (.trapOut u') s ∧
      exec (.trapIn u) s = exec (.trapIn u') s ∧ exec (.trapHalt u) s = exec (.trapHalt u') s) ∧
    (∀ u u', mapState eraseInfo (exec (.trapPuts u) s) = mapState eraseInfo (exec (.trapPuts u') s)) ∧
    (∀ u u', mapState eraseInfo (exec (.trapPutsp u) s) = mapState eraseInfo (exec (.trapPutsp u') s)) ∧
    (∀ u u' v, mapState eraseInfo (exec (.trapUndef u v) s) = mapState eraseInfo (exec (.trapUndef u' v) s)) ∧
    (∀ u u', mapState eraseInfo (exec (.rti u) s) = mapState eraseInfo (exec (.rti u') s)) ∧
    (∀ u u', mapState eraseInfo (exec (.res u) s) = mapState eraseInfo (exec (.res u') s))

/-! ### Notation: extension, flags, registers, memory -/

/-- R7: for each width the hardware uses, the formula, the two's-complement reading, and idempotence at the same width. -/
def Obligations.SignExtensionIsTwosComplement : Prop :=
  ∀ k ∈ [5, 6, 9, 11], ∀ f : BitVec k,
    (sext f).toNat = (if 2 ^ (k - 1) ≤ f.toNat then f.toNat + (0xFFFF - (2 ^ k - 1)) else f.toNat) ∧
    (sext f).toInt = (if 2 ^ (k - 1) ≤ f.toNat then (f.toNat : Int) - 2 ^ k else f.toNat) ∧
    sext ((sext f).extractLsb' 0 k) = sext f

/-- R84: `SetCC` sets exactly the flag of the value, whatever `COND` was, and changes nothing else. -/
def Obligations.SetCCFollowsTheSign : Prop :=
  ∀ (s : State) (v : Word),
    (v = 0x0000#16 → (s.setCC v).cond = .z) ∧
    (1 ≤ v.toNat → v.toNat ≤ 0x7FFF → (s.setCC v).cond = .p) ∧
    (0x8000 ≤ v.toNat → (s.setCC v).cond = .n) ∧
    RegsKept [] s (s.setCC v) ∧ (s.setCC v).pc = s.pc ∧ CellsKept [] s (s.setCC v) ∧ StreamsKept s (s.setCC v) ∧
    ControlKept s (s.setCC v)

/-- R20: eight ordinary registers, none hard-wired and none an alias: a register reads what was last written to it, and a
write of one leaves the other seven and everything else alone. -/
def Obligations.RegistersReadWhatWasLastWritten : Prop :=
  ∀ (s : State) (r : Reg) (v : Word), (s.setReg r v).getReg r = v ∧ RegsKept [r] s (s.setReg r v) ∧
    (s.setReg r v).pc = s.pc ∧ (s.setReg r v).cond = s.cond ∧ CellsKept [] s (s.setReg r v) ∧
    StreamsKept s (s.setReg r v) ∧ ControlKept s (s.setReg r v)

/-- R45: a store is plain at every address, the keyboard cells included: the cell holds the value, every other cell and
everything else is as before, and the input source is not touched. -/
def Obligations.StoreIsPlainAtEveryAddress : Prop :=
  ∀ (s : State) (a v : Word), OnlyStored a v s (s.memWrite a v)

/-- R44 with the spec's own decision D7, R48 with D15: a read that does not take the keyboard path returns the cell and
changes nothing; a read of 0xFE00 with the decoder present returns and stores 0x8000 and moves the pending character into
0xFE02, or returns and stores 0x0000, consumes no character and leaves 0xFE02. D7 is log entry 15, D15 log entry 7; when a key
is pending follows the model's form of the oracle (log entry 4). -/
def Obligations.MemReadPollsTheKeyboardCell : Prop :=
  ∀ (s : State) (a : Word),
    (¬ Polls s a → s.memRead a = (s.getCell a, s)) ∧
    (Polls s a → ∀ c rest, s.input = ⟨0, c⟩ :: rest →
      (s.memRead a).1 = 0x8000#16 ∧ (s.memRead a).2.getCell 0xFE00#16 = 0x8000#16 ∧
      (s.memRead a).2.getCell 0xFE02#16 = c.setWidth 16 ∧ CellsKept keyboardCells s (s.memRead a).2 ∧
      (s.memRead a).2.input = rest) ∧
    (Polls s a → s.keyAvailable = false →
      (s.memRead a).1 = 0x0000#16 ∧ (s.memRead a).2.getCell 0xFE00#16 = 0x0000#16 ∧
      CellsKept [0xFE00#16] s (s.memRead a).2 ∧ charsOf (s.memRead a).2 = charsOf s) ∧
    RegsKept [] s (s.memRead a).2 ∧ (s.memRead a).2.pc = s.pc ∧ (s.memRead a).2.cond = s.cond ∧
    (s.memRead a).2.console = s.console ∧ ControlKept s (s.memRead a).2

/-- R12, with the model's form of the oracle (log entry 4): a pending character is the one the next `ReadChar` returns; a poll
answered false consumes nothing and may be followed by true or false as the environment decides; and once `KeyAvailable`
answers true it does so after every step that consumes no character. That the step of a stopped core is answered is the
model's choice too (log entry 9); that a poll takes a pending character with it on every read of 0xFE00 is the spec's own
decision D6 (log entry 15). -/
def Obligations.KeyAvailableIsStableUntilConsumed : Prop :=
  ∀ s : State,
    (s.keyAvailable = true → ∃ c t, s.readChar = some (c, t) ∧ charsOf s = c :: charsOf t ∧ t = { s with input := t.input }) ∧
    (∀ q c rest, s.input = ⟨q, c⟩ :: rest →
      s.keyAvailable = decide (q = 0) ∧ s.passQuietPoll = { s with input := ⟨q - 1, c⟩ :: rest }) ∧
    (s.input = [] → s.keyAvailable = false ∧ s.passQuietPoll = s) ∧
    (∀ t, step s = .next t → s.keyAvailable = true → charsOf t = charsOf s → t.keyAvailable = true)

/-- R49: a read of any address but 0xFE00 is idempotent; a read of 0xFE00 is not: two in a row can consume two characters, the
first one lost from 0xFE02, or find one and then none. A write is idempotent. The values a poll stores are the spec's own
decision D7 (log entry 15), the decoder its D15 (log entry 7), the pending characters the model's form (log entry 4). -/
def Obligations.OnlyTheStatusCellReadIsNotIdempotent : Prop :=
  (∀ (s : State) (a : Word), a ≠ 0xFE00#16 → (s.memRead a).2 = s ∧ (s.memRead a).2.memRead a = s.memRead a) ∧
  (∀ (s : State) (c d : Byte) (rest : List Keystroke), s.cfg.kbdMmio = true → s.input = ⟨0, c⟩ :: ⟨0, d⟩ :: rest →
    (s.memRead 0xFE00#16).1 = 0x8000#16 ∧ ((s.memRead 0xFE00#16).2.memRead 0xFE00#16).1 = 0x8000#16 ∧
    ((s.memRead 0xFE00#16).2.memRead 0xFE00#16).2.getCell 0xFE02#16 = d.setWidth 16 ∧
    ((s.memRead 0xFE00#16).2.memRead 0xFE00#16).2.input = rest) ∧
  (∀ (s : State) (c : Byte), s.cfg.kbdMmio = true → s.input = [⟨0, c⟩] →
    (s.memRead 0xFE00#16).1 = 0x8000#16 ∧ ((s.memRead 0xFE00#16).2.memRead 0xFE00#16).1 = 0x0000#16) ∧
  (∀ (s : State) (a v : Word), (s.memWrite a v).memWrite a v = s.memWrite a v)

/-- The canonical form of memory (log entry 6, the model's own): two canonical memories that read the same at every one of the
65536 addresses are the same list. -/
def Obligations.CanonicalMemoriesWithEqualCellsAreEqual : Prop :=
  ∀ m m' : Memory, Memory.wf m → Memory.wf m' → (∀ a : Word, Memory.read m a.toNat = Memory.read m' a.toNat) → m = m'

/-! ### The step -/

/-- R80 to R83: while `RUN` is true a step fetches through `MemRead`, increments `PC` modulo 2^16, and executes the instruction
the fetched word decodes to; with no poll at the fetch that word is the cell at `PC` and nothing else has changed. That a fetch
can poll is the spec's own decision D6 (log entry 15), the wrap of `PC` its D17 (log entry 19). -/
def Obligations.StepRunsTheDecodedInstruction : Prop :=
  ∀ s : State, s.run = true →
    step s = exec (decode (s.memRead s.pc).1) ((s.memRead s.pc).2.setPc (s.pc + 1#16)) ∧
    (¬ Polls s s.pc → step s = exec (decode (s.getCell s.pc)) (s.setPc (s.pc + 1#16))) ∧
    (∀ i : Instr, i.wf = true → ¬ Polls s s.pc → s.getCell s.pc = encode i → step s = exec i (s.setPc (s.pc + 1#16)))

/-- R86: a stopped core performs no further step and all state keeps its value, however long the machine is run. That the
model answers such a step with the same state is its own choice (log entry 9). The frozen state is also the spec's own
decision D18 (log entry 20). -/
def Obligations.StoppedCoreKeepsAllState : Prop :=
  ∀ (s : State) (k : Nat), s.run = false → core.run k s = .next s

/-- R54, R175, R35, with R81: a store by ST, STR or STI completes with its value in the cell it computes. If that is the
following cell, the value is the next instruction executed; if it is the cell of the store itself, the step is still the one of
the word that was fetched. That fetches can poll is the spec's own decision D6 (log entry 15), the wrap of `PC` its D17 (log
entry 19). -/
def Obligations.StoredWordIsTheNextInstruction : Prop :=
  ∀ (s : State) (i : Instr) (sr : Reg) (a : Word), s.run = true → ¬ Polls s s.pc → decode (s.getCell s.pc) = i →
    storedReg i = some sr → storeAddr i (s.setPc (s.pc + 1#16)) = [a] →
    ∃ t, step s = .next t ∧ t.getCell a = s.getReg sr ∧
      (a = s.pc + 1#16 → ¬ Polls s (s.pc + 1#16) → step t = exec (decode (s.getReg sr)) (t.setPc (s.pc + 2#16))) ∧
      (a = s.pc → step s = exec i (s.setPc (s.pc + 1#16)) ∧ t.getCell s.pc = s.getReg sr ∧ t.pc = s.pc + 1#16)

/-! ### ADD, AND, NOT -/

/-- R90: DR takes the sum. The opcode number is the spec's own decision D1 (log entry 12); that the unused bits are ignored is
its D5 (log entry 14). -/
def Obligations.AddRegisterFormWritesTheSum : Prop :=
  (∀ w : Word, w &&& 0xF020#16 = 0x1000#16 →
    decode w = .add (regAt w 9) (regAt w 6) (regAt w 0) (w.extractLsb' 3 2)) ∧
  (∀ dr sr1 sr2 u s, ∃ t, exec (.add dr sr1 sr2 u) s = .next t ∧
    OnlyResult dr (s.getReg sr1 + s.getReg sr2) s t)

/-- R91: DR takes the sum, and the two forms agree. The opcode number is the spec's own decision D1 (log entry 12); the unused
bits of the register form are ignored by its D5 (log entry 14). -/
def Obligations.AddImmediateFormWritesTheSum : Prop :=
  (∀ w : Word, w &&& 0xF020#16 = 0x1020#16 → decode w = .addi (regAt w 9) (regAt w 6) (w.extractLsb' 0 5)) ∧
  (∀ dr sr1 imm5 s, ∃ t, exec (.addi dr sr1 imm5) s = .next t ∧ OnlyResult dr (s.getReg sr1 + sext imm5) s t) ∧
  (∀ dr sr1 sr2 u imm5 s, s.getReg sr2 = sext imm5 → exec (.addi dr sr1 imm5) s = exec (.add dr sr1 sr2 u) s)

/-- R92: DR takes the conjunction. The opcode number is the spec's own decision D1 (log entry 12); that the unused bits are
ignored is its D5 (log entry 14). -/
def Obligations.AndRegisterFormWritesTheConjunction : Prop :=
  (∀ w : Word, w &&& 0xF020#16 = 0x5000#16 →
    decode w = .and (regAt w 9) (regAt w 6) (regAt w 0) (w.extractLsb' 3 2)) ∧
  (∀ dr sr1 sr2 u s, ∃ t, exec (.and dr sr1 sr2 u) s = .next t ∧
    OnlyResult dr (s.getReg sr1 &&& s.getReg sr2) s t)

/-- R93: DR takes the conjunction, and the two forms agree. The opcode number is the spec's own decision D1 (log entry 12);
the unused bits of the register form are ignored by its D5 (log entry 14). -/
def Obligations.AndImmediateFormWritesTheConjunction : Prop :=
  (∀ w : Word, w &&& 0xF020#16 = 0x5020#16 → decode w = .andi (regAt w 9) (regAt w 6) (w.extractLsb' 0 5)) ∧
  (∀ dr sr1 imm5 s, ∃ t, exec (.andi dr sr1 imm5) s = .next t ∧ OnlyResult dr (s.getReg sr1 &&& sext imm5) s t) ∧
  (∀ dr sr1 sr2 u imm5 s, s.getReg sr2 = sext imm5 → exec (.andi dr sr1 imm5) s = exec (.and dr sr1 sr2 u) s)

/-- R94: `t = 0xFFFF - x[SR]`. The opcode number is the spec's own decision D1 (log entry 12); that the unused bits are
ignored is its D5 (log entry 14). -/
def Obligations.NotWritesTheComplement : Prop :=
  (∀ w : Word, w &&& 0xF000#16 = 0x9000#16 → decode w = .not (regAt w 9) (regAt w 6) (w.extractLsb' 0 6)) ∧
  (∀ dr sr u s, ∃ t, exec (.not dr sr u) s = .next t ∧ OnlyResult dr (0xFFFF#16 - s.getReg sr) s t)

/-! ### Loads, stores, LEA -/

/-- R100: one read. The opcode number is the spec's own decision D1 (log entry 12), the wrap of the address its D17 (log entry
19), which reads poll and what a poll stores its D6 and D7 (log entry 15). -/
def Obligations.LdLoadsFromThePcRelativeCell : Prop :=
  (∀ w : Word, w &&& 0xF000#16 = 0x2000#16 → decode w = .ld (regAt w 9) (w.extractLsb' 0 9)) ∧
  (∀ dr off9 s, ∃ t, exec (.ld dr off9) s = .next t ∧
    OnlyLoaded dr (s.memRead (s.pc + sext off9)).1 s (s.memRead (s.pc + sext off9)).2 t ∧
    CellsKept keyboardCells s t ∧
    (¬ Polls s (s.pc + sext off9) →
      t.getReg dr = s.getCell (s.pc + sext off9) ∧ CellsKept [] s t ∧ t.input = s.input))

/-- R101: one store, of the computed cell. The opcode number is the spec's own decision D1 (log entry 12), the wrap of the
address its D17 (log entry 19). -/
def Obligations.StStoresToThePcRelativeCell : Prop :=
  (∀ w : Word, w &&& 0xF000#16 = 0x3000#16 → decode w = .st (regAt w 9) (w.extractLsb' 0 9)) ∧
  (∀ sr off9 s, ∃ t, exec (.st sr off9) s = .next t ∧ OnlyStored (s.pc + sext off9) (s.getReg sr) s t)

/-- R102: one read, the base taken before DR is written. The opcode number is the spec's own decision D1 (log entry 12), the
wrap of the address its D17 (log entry 19), which reads poll and what a poll stores its D6 and D7 (log entry 15). -/
def Obligations.LdrLoadsFromBasePlusOffset : Prop :=
  (∀ w : Word, w &&& 0xF000#16 = 0x6000#16 → decode w = .ldr (regAt w 9) (regAt w 6) (w.extractLsb' 0 6)) ∧
  (∀ dr baser off6 s, ∃ t, exec (.ldr dr baser off6) s = .next t ∧
    OnlyLoaded dr (s.memRead (s.getReg baser + sext off6)).1 s (s.memRead (s.getReg baser + sext off6)).2 t ∧
    CellsKept keyboardCells s t ∧
    (¬ Polls s (s.getReg baser + sext off6) →
      t.getReg dr = s.getCell (s.getReg baser + sext off6) ∧ CellsKept [] s t ∧ t.input = s.input))

/-- R103: one store, of the computed cell. The opcode number is the spec's own decision D1 (log entry 12), the wrap of the
address its D17 (log entry 19). -/
def Obligations.StrStoresToBasePlusOffset : Prop :=
  (∀ w : Word, w &&& 0xF000#16 = 0x7000#16 → decode w = .str (regAt w 9) (regAt w 6) (w.extractLsb' 0 6)) ∧
  (∀ sr baser off6 s, ∃ t, exec (.str sr baser off6) s = .next t ∧
    OnlyStored (s.getReg baser + sext off6) (s.getReg sr) s t)

/-- R104: two reads, the pointer first. The opcode number is the spec's own decision D1 (log entry 12), the wrap of the
address its D17 (log entry 19), which reads poll and what a poll stores its D6 and D7 (log entry 15). -/
def Obligations.LdiLoadsThroughThePointerCell : Prop :=
  (∀ w : Word, w &&& 0xF000#16 = 0xA000#16 → decode w = .ldi (regAt w 9) (w.extractLsb' 0 9)) ∧
  (∀ dr off9 s, ∃ t, exec (.ldi dr off9) s = .next t ∧
    (let p := s.memRead (s.pc + sext off9)
     OnlyLoaded dr (p.2.memRead p.1).1 s (p.2.memRead p.1).2 t) ∧
    CellsKept keyboardCells s t ∧
    (¬ Polls s (s.pc + sext off9) → ¬ Polls s (s.getCell (s.pc + sext off9)) →
      t.getReg dr = s.getCell (s.getCell (s.pc + sext off9)) ∧ CellsKept [] s t ∧ t.input = s.input))

/-- R105: the pointer is read, then the store goes through it; a poll at the pointer read is the only other change. The opcode
number is the spec's own decision D1 (log entry 12), the wrap of the address its D17 (log entry 19), which reads poll and what
a poll stores its D6 and D7 (log entry 15). -/
def Obligations.StiStoresThroughThePointerCell : Prop :=
  (∀ w : Word, w &&& 0xF000#16 = 0xB000#16 → decode w = .sti (regAt w 9) (w.extractLsb' 0 9)) ∧
  (∀ sr off9 s, ∃ t, exec (.sti sr off9) s = .next t ∧
    (let p := s.memRead (s.pc + sext off9)
     t.getCell p.1 = s.getReg sr ∧ CellsKept [p.1] p.2 t ∧ CellsKept (p.1 :: keyboardCells) s t ∧ t.input = p.2.input) ∧
    RegsKept [] s t ∧ t.cond = s.cond ∧ t.pc = s.pc ∧ t.console = s.console ∧ ControlKept s t ∧
    (¬ Polls s (s.pc + sext off9) → OnlyStored (s.getCell (s.pc + sext off9)) (s.getReg sr) s t))

/-- R106: the address, not the cell; no poll, whatever the address. The opcode number is the spec's own decision D1 (log entry
12), the wrap of the address its D17 (log entry 19). -/
def Obligations.LeaWritesTheAddressAndReadsNoMemory : Prop :=
  (∀ w : Word, w &&& 0xF000#16 = 0xE000#16 → decode w = .lea (regAt w 9) (w.extractLsb' 0 9)) ∧
  (∀ dr off9 s, ∃ t, exec (.lea dr off9) s = .next t ∧ OnlyResult dr (s.pc + sext off9) s t)

/-! ### BR, JMP, JSR, JSRR -/

/-- R120, with the spec's own decision D2 (log entry 13) on which bit tests which flag: taken exactly when a named flag is the
one set. The opcode number is its D1 (log entry 12), the wrap of the target its D17 (log entry 19). -/
def Obligations.BrIsTakenWhenANamedFlagIsSet : Prop :=
  (∀ w : Word, w &&& 0xF000#16 = 0x0000#16 → decode w = .br w[11] w[10] w[9] (w.extractLsb' 0 9)) ∧
  (∀ n z p off9 s, ∃ t, exec (.br n z p off9) s = .next t ∧
    ((n = true ∧ s.cond = .n) ∨ (z = true ∧ s.cond = .z) ∨ (p = true ∧ s.cond = .p) →
      OnlyPc (s.pc + sext off9) s t) ∧
    (¬ ((n = true ∧ s.cond = .n) ∨ (z = true ∧ s.cond = .z) ∨ (p = true ∧ s.cond = .p)) → OnlyPc s.pc s t))

/-- R121: `PC <- x[BaseR]`. The opcode number is the spec's own decision D1 (log entry 12); that the unused bits are ignored
is its D5 (log entry 14). -/
def Obligations.JmpGoesToTheBaseRegister : Prop :=
  (∀ w : Word, w &&& 0xF000#16 = 0xC000#16 →
    decode w = .jmp (w.extractLsb' 9 3) (regAt w 6) (w.extractLsb' 0 6)) ∧
  (∀ h baser l s, ∃ t, exec (.jmp h baser l) s = .next t ∧ OnlyPc (s.getReg baser) s t)

/-- R122: R7, then the target. The opcode number is the spec's own decision D1 (log entry 12), the wrap of the target its D17
(log entry 19). -/
def Obligations.JsrLinksAndGoesPcRelative : Prop :=
  (∀ w : Word, w &&& 0xF800#16 = 0x4800#16 → decode w = .jsr (w.extractLsb' 0 11)) ∧
  (∀ off11 s, ∃ t, exec (.jsr off11) s = .next t ∧ OnlyCall (s.pc + sext off11) s t)

/-- R123, with the spec's own decision D10 (log entry 17): R7 is written before the base is read, so `JSRR R7` falls through.
The opcode number is its D1 (log entry 12); that the unused bits are ignored is its D5 (log entry 14). -/
def Obligations.JsrrLinksThenReadsTheBase : Prop :=
  (∀ w : Word, w &&& 0xF800#16 = 0x4000#16 →
    decode w = .jsrr (w.extractLsb' 9 2) (regAt w 6) (w.extractLsb' 0 6)) ∧
  (∀ h baser l s, baser ≠ 7 → ∃ t, exec (.jsrr h baser l) s = .next t ∧ OnlyCall (s.getReg baser) s t) ∧
  (∀ h l s, ∃ t, exec (.jsrr h 7 l) s = .next t ∧ OnlyCall s.pc s t)

/-- R124: JSR, JSRR and every TRAP put the return address in R7; after any work that leaves R7 as it is, ending in a state
`u`, `JMP R7` goes back to it. That this holds whatever the unused bits of JSRR, TRAP and JMP is the spec's own decision D5
(log entry 14). -/
def Obligations.JmpThroughR7ReturnsAfterTheCall : Prop :=
  ∀ (i : Instr) (s t : State), linksR7 i = true → exec i s = .next t → t.getReg 7 = s.pc ∧
    ∀ h l (u : State), u.getReg 7 = t.getReg 7 → ∃ v, exec (.jmp h 7 l) u = .next v ∧ OnlyPc s.pc u v

/-! ### TRAP, RTI, RES -/

/-- R131: the next character, zero-extended, into R0, and its flags; nothing is written to the console. While there is no
character the step does not complete: what is to come is a list (log entry 4), on whose end the spec decides in D19 and the
model in log entry 8. That the unused bits are ignored is the spec's own decision D5 (log entry 14). -/
def Obligations.GetcReadsOneCharacterIntoR0 : Prop :=
  (∀ w : Word, w &&& 0xF0FF#16 = 0xF020#16 → decode w = .trapGetc (w.extractLsb' 8 4)) ∧
  (∀ u s k rest, s.input = k :: rest → ∃ t, exec (.trapGetc u) s = .next t ∧
    t.getReg 7 = s.pc ∧ t.getReg 0 = k.char.setWidth 16 ∧ t.cond = flagOf (k.char.setWidth 16) ∧ t.input = rest ∧
    RegsKept [0, 7] s t ∧ t.pc = s.pc ∧ CellsKept [] s t ∧ t.console = s.console ∧ ControlKept s t) ∧
  (∀ u s, s.input = [] → ∀ t, exec (.trapGetc u) s ≠ .next t)

/-- R132: the low byte of R0. That the unused bits are ignored is the spec's own decision D5 (log entry 14), the flush that
does nothing its D23 (log entry 22). -/
def Obligations.OutWritesTheLowByteOfR0 : Prop :=
  (∀ w : Word, w &&& 0xF0FF#16 = 0xF021#16 → decode w = .trapOut (w.extractLsb' 8 4)) ∧
  (∀ u s, ∃ t, exec (.trapOut u) s = .next t ∧
    t.console = s.console ++ [(s.getReg 0).extractLsb' 0 8] ∧ t.getReg 7 = s.pc ∧ RegsKept [7] s t ∧ t.cond = s.cond ∧
    t.pc = s.pc ∧ CellsKept [] s t ∧ t.input = s.input ∧ ControlKept s t)

/-- R133, with the spec's own decision D11 on the end of memory: the low bytes of the cells from `x[0]` up to the first zero
cell; a nonzero cell at 0xFFFF is written and then faults. Every state has one of the two ends, at some `n`. That the unused
bits are ignored is its D5 (log entry 14), that the scan polls at 0xFE00 and what a poll stores its D6 and D7 (log entry 15).
The fault record is its D8; D8 and D11 are log entry 16. -/
def Obligations.PutsWritesLowBytesUpToTheZeroCell : Prop :=
  (∀ w : Word, w &&& 0xF0FF#16 = 0xF022#16 → decode w = .trapPuts (w.extractLsb' 8 4)) ∧
  (∀ u s n cs, (s.getReg 0).toNat + n ≤ 0xFFFF → (readRun (n + 1) (s.getReg 0) s).1 = cs ++ [0#16] → 0#16 ∉ cs →
    ∃ t, exec (.trapPuts u) s = .next t ∧
      OnlyPrinted (lowBytes cs) s (readRun (n + 1) (s.getReg 0) s).2 t ∧ CellsKept keyboardCells s t ∧
      ((∀ j ≤ n, ¬ Polls s (s.getReg 0 + BitVec.ofNat 16 j)) → CellsKept [] s t ∧ t.input = s.input)) ∧
  (∀ u s n, (s.getReg 0).toNat + n = 0xFFFF → 0#16 ∉ (readRun (n + 1) (s.getReg 0) s).1 →
    ∃ t, exec (.trapPuts u) s = .next t ∧
      PrintedThenOverrun (lowBytes (readRun (n + 1) (s.getReg 0) s).1) (encode (.trapPuts u)) s
        (readRun (n + 1) (s.getReg 0) s).2 t ∧ CellsKept keyboardCells s t ∧
      ((∀ j ≤ n, ¬ Polls s (s.getReg 0 + BitVec.ofNat 16 j)) → CellsKept [] s t ∧ t.input = s.input)) ∧
  (∀ u s, ∃ t, exec (.trapPuts u) s = .next t)

/-- R134, with the spec's own decisions D12 (the prompt is a parameter) and D13 (zero extension, the echo is the byte read):
the prompt, then the echo, and the character in R0 with its flags. That the unused bits are ignored is its D5 (log entry 14);
the list of characters is the model's form (log entry 4). D12 is log entry 3, D13 log entry 18. -/
def Obligations.InPromptsReadsAndEchoes : Prop :=
  (∀ w : Word, w &&& 0xF0FF#16 = 0xF023#16 → decode w = .trapIn (w.extractLsb' 8 4)) ∧
  (∀ u s k rest, s.input = k :: rest → ∃ t, exec (.trapIn u) s = .next t ∧
    t.console = s.console ++ s.cfg.inPrompt ++ [k.char] ∧
    t.getReg 7 = s.pc ∧ t.getReg 0 = k.char.setWidth 16 ∧ t.cond = flagOf (k.char.setWidth 16) ∧ t.input = rest ∧
    RegsKept [0, 7] s t ∧ t.pc = s.pc ∧ CellsKept [] s t ∧ ControlKept s t)

/-- R135, with the spec's own decisions D11 and D22: as PUTS, two characters a cell, low byte always, high byte if nonzero.
That the unused bits are ignored is its D5 (log entry 14), that the scan polls at 0xFE00 and what a poll stores its D6 and D7
(log entry 15). D22 is log entry 18; the fault record is its D8, and D8 and D11 are log entry 16. -/
def Obligations.PutspWritesPackedBytesUpToTheZeroCell : Prop :=
  (∀ w : Word, w &&& 0xF0FF#16 = 0xF024#16 → decode w = .trapPutsp (w.extractLsb' 8 4)) ∧
  (∀ u s n cs, (s.getReg 0).toNat + n ≤ 0xFFFF → (readRun (n + 1) (s.getReg 0) s).1 = cs ++ [0#16] → 0#16 ∉ cs →
    ∃ t, exec (.trapPutsp u) s = .next t ∧
      OnlyPrinted (packedBytes cs) s (readRun (n + 1) (s.getReg 0) s).2 t ∧ CellsKept keyboardCells s t ∧
      ((∀ j ≤ n, ¬ Polls s (s.getReg 0 + BitVec.ofNat 16 j)) → CellsKept [] s t ∧ t.input = s.input)) ∧
  (∀ u s n, (s.getReg 0).toNat + n = 0xFFFF → 0#16 ∉ (readRun (n + 1) (s.getReg 0) s).1 →
    ∃ t, exec (.trapPutsp u) s = .next t ∧
      PrintedThenOverrun (packedBytes (readRun (n + 1) (s.getReg 0) s).1) (encode (.trapPutsp u)) s
        (readRun (n + 1) (s.getReg 0) s).2 t ∧ CellsKept keyboardCells s t ∧
      ((∀ j ≤ n, ¬ Polls s (s.getReg 0 + BitVec.ofNat 16 j)) → CellsKept [] s t ∧ t.input = s.input)) ∧
  (∀ u s, ∃ t, exec (.trapPutsp u) s = .next t)

/-- R136: the notice, then `RUN` is false; `FAULT` is untouched and no memory cell changes. The notice is a parameter by the
spec's own decision D12 (log entry 3). That the unused bits are ignored is its D5 (log entry 14). -/
def Obligations.HaltWritesTheNoticeAndStops : Prop :=
  (∀ w : Word, w &&& 0xF0FF#16 = 0xF025#16 → decode w = .trapHalt (w.extractLsb' 8 4)) ∧
  (∀ u s, ∃ t, exec (.trapHalt u) s = .next t ∧
    t.console = s.console ++ s.cfg.haltNotice ∧ t.run = false ∧ t.fault = s.fault ∧ t.getReg 7 = s.pc ∧
    RegsKept [7] s t ∧ t.cond = s.cond ∧ t.pc = s.pc ∧ CellsKept [] s t ∧ t.input = s.input ∧ t.cfg = s.cfg)

/-- R137, with the spec's own decisions D9 (an undefined vector faults) and D8 (the fault record): R7 is written, then the
fault, cause UndefinedTrap, whose info is the instruction word. That the unused bits are ignored is its D5 (log entry 14). D8
and D9 are log entry 16. -/
def Obligations.UndefinedTrapVectorFaults : Prop :=
  ∀ w : Word, w &&& 0xF000#16 = 0xF000#16 →
    ((w.extractLsb' 0 8).toNat < 0x20 ∨ 0x25 < (w.extractLsb' 0 8).toNat) →
    decode w = .trapUndef (w.extractLsb' 8 4) (w.extractLsb' 0 8) ∧
    ∀ s, ∃ t, exec (.trapUndef (w.extractLsb' 8 4) (w.extractLsb' 0 8)) s = .next t ∧
      t.getReg 7 = s.pc ∧ OnlyFaulted .undefinedTrap w (s.setReg 7 s.pc) t

/-- R138, with the spec's own decision D8 (the fault record): opcode 0x8 faults, cause IllegalOpcode_RTI; R7 is not written.
That the unused bits are ignored is its D5 (log entry 14), the opcode number its D1 (log entry 12). D8 is log entry 16. -/
def Obligations.RtiFaults : Prop :=
  ∀ w : Word, w &&& 0xF000#16 = 0x8000#16 →
    decode w = .rti (w.extractLsb' 0 12) ∧
    ∀ s, ∃ t, exec (.rti (w.extractLsb' 0 12)) s = .next t ∧ OnlyFaulted .illegalOpcodeRti w s t

/-- R139, with the spec's own decision D8 (the fault record): opcode 0xD faults, cause IllegalOpcode_RES; R7 is not written.
That the unused bits are ignored is its D5 (log entry 14), the opcode number its D1 (log entry 12). D8 is log entry 16. -/
def Obligations.ResFaults : Prop :=
  ∀ w : Word, w &&& 0xF000#16 = 0xD000#16 →
    decode w = .res (w.extractLsb' 0 12) ∧
    ∀ s, ∃ t, exec (.res (w.extractLsb' 0 12)) s = .next t ∧ OnlyFaulted .illegalOpcodeRes w s t

/-- R177, U6, U7: with no character ever to come, GETC and IN do not complete; the core waits neither halted nor faulted, with
R7 written and, for IN, the prompt on the console. The form of the stop is the model's (log entry 8). That the step does not
complete is the spec's own decision D19, the prompt a parameter by its D12 (log entry 3), the ignored bits its D5 (log entry
14); that an empty list means no further character is the model's form (log entry 4). -/
def Obligations.GetcAndInWaitWithoutInput : Prop :=
  ∀ u s, s.input = [] →
    (∃ t, exec (.trapGetc u) s = .fault (.blockedOnInput t) ∧ t.console = s.console ∧
      t.getReg 7 = s.pc ∧ RegsKept [7] s t ∧ t.cond = s.cond ∧ t.pc = s.pc ∧ CellsKept [] s t ∧ t.input = [] ∧
      ControlKept s t) ∧
    (∃ t, exec (.trapIn u) s = .fault (.blockedOnInput t) ∧ t.console = s.console ++ s.cfg.inPrompt ∧
      t.getReg 7 = s.pc ∧ RegsKept [7] s t ∧ t.cond = s.cond ∧ t.pc = s.pc ∧ CellsKept [] s t ∧ t.input = [] ∧
      ControlKept s t)

/-! ### Reset and load -/

/-- R38 and the reset table of 10_state.md, with the spec's own decision D18 (`RUN` true): `PC` is 0x3000, `RUN` true, `FAULT`
none, every cell zero, the console empty, the keyboard decoder present. `COND`, the registers and the input are left out: the
model's choices of log entries 1, 2 and 5. The start address is also its D21 (D18 and D21 are log entry 20), the decoder its
D15 (log entry 7). -/
def Obligations.ResetStateIsAsTheSpecSays : Prop :=
  State.reset.pc = 0x3000#16 ∧ State.reset.run = true ∧ State.reset.fault = none ∧ State.reset.console = [] ∧
    State.reset.cfg.kbdMmio = true ∧ ∀ a : Word, State.reset.getCell a = 0x0000#16

/-- The reset state meets the invariant that every step keeps, and so does every state the loader makes of it. The canonical
form is the model's choice (log entry 6); that `RUN` and the fault record start so is the spec's own decision D18 (log entry
20) and D8 (log entry 16). -/
def Obligations.ResetAndLoadMeetTheInvariant : Prop := Safety.Inv State.reset ∧ ∀ images, Safety.Inv (State.boot images)

/-- R56: the words of an image stand from its origin up, as far as 0xFFFF; every other cell and all other state is as before;
of two images the later one's words stay. -/
def Obligations.ImageLoadPlacesTheWords : Prop :=
  ∀ (s : State) (i : Image),
    (∀ a : Word, (s.loadImage i).getCell a =
      if i.origin.toNat ≤ a.toNat then (i.words[a.toNat - i.origin.toNat]?).getD (s.getCell a) else s.getCell a) ∧
    RegsKept [] s (s.loadImage i) ∧ (s.loadImage i).pc = s.pc ∧ (s.loadImage i).cond = s.cond ∧
    StreamsKept s (s.loadImage i) ∧ ControlKept s (s.loadImage i) ∧
    (∀ j : Image, s.loadImages [i, j] = (s.loadImage i).loadImage j)

/-! ### The whole machine -/

/-- The invariant, kept by every step from every state that meets it: memory canonical (log entry 6), a recorded fault only in
a stopped core (R151), and with it the parameters of the run unchanged (R4). The fault record is the spec's own decision D8
(log entry 16); that the parameters stand in the state and that the step of a stopped core is answered are the model's choices
(log entries 7 and 9). -/
def Obligations.EveryStepKeepsTheInvariant : Prop :=
  ∀ s t : State, Safety.Inv s → step s = .next t → Safety.Inv t ∧ t.cfg = s.cfg

/-- R150 "Nothing else faults", R81, R177: a step always has a next state, but for GETC and IN when no character is left; no
step is refused. The outcome of the blocked read is the model's choice (log entry 8), and so is the answered step of a stopped
core (log entry 9); an empty list as the end of input is its form (log entry 4). That the read does not complete is the spec's
own decision D19; that an undefined vector and an overrun end in a fault, which is a next state here, its D8, D9 and D11 (log
entry 16). -/
def Obligations.EveryStepCompletesButABlockedRead : Prop :=
  ∀ s : State, (∃ t, step s = .next t) ∨
    (s.run = true ∧ asksForChar (decode s.fetch.1) = true ∧ s.fetch.2.input = [] ∧
      ∃ b, step s = .fault (.blockedOnInput b))

/-- Property 4 of 95_test_vectors.md, part 4, for the registers: a step changes no general register but the one its
instruction names, R7 at a call or a TRAP, and R0 at GETC and IN (R21). That an undefined TRAP writes R7 before it faults is
the spec's own decision D9 (log entry 16). -/
def Obligations.StepWritesOnlyTheNamedRegisters : Prop :=
  ∀ s t : State, s.run = true → step s = .next t → RegsKept (writtenRegs (decode s.fetch.1)) s t

/-- Property 8 of 95_test_vectors.md, part 4: memory outside the keyboard cells changes only by ST, STR and STI, one cell a
step; with the decoder absent the keyboard cells are no exception (R48). The decoder is the spec's own decision D15 (log entry
7), which reads poll and what a poll stores its D6 and D7 (log entry 15), the wrap of the address its D17 (log entry 19). -/
def Obligations.MemoryChangesOnlyByStoresAndPolls : Prop :=
  ∀ s t : State, s.run = true → step s = .next t →
    CellsKept (storeAddr (decode s.fetch.1) s.fetch.2 ++ keyboardCells) s t ∧
    (s.cfg.kbdMmio = false → CellsKept (storeAddr (decode s.fetch.1) s.fetch.2) s t)

/-- R28: `COND` is written by the flag-setting instructions only, from the value just written to their destination register;
every other instruction leaves it unchanged; and it is read by BR and by nothing else: no other instruction's effect on the
rest of the state depends on it. The comparison takes in the waiting outcome of GETC and IN, the model's choice (log entry 8);
the fault of an undefined vector and of an overrun, which leave `COND`, are the spec's own decisions D9 and D11 (log entry
16). -/
def Obligations.CondIsWrittenByFlagSettersAndReadByBr : Prop :=
  (∀ s t : State, s.run = true → step s = .next t →
    t.cond = match flagReg (decode s.fetch.1) with
      | some r => flagOf (t.getReg r)
      | none => s.cond) ∧
  (∀ (i : Instr) (s : State) (c : Cond), (∀ n z p off9, i ≠ .br n z p off9) →
    mapState eraseCond (exec i (withCond c s)) = mapState eraseCond (exec i s))

/-- R24: every instruction advances `PC` by 1, modulo 2^16; only BR, JMP, JSR and JSRR replace it. The wrap is the spec's own
decision D17 (log entry 19). That faults leave `PC` so includes its D9 and D11 (log entry 16). -/
def Obligations.PcAdvancesByOneButAtTransfers : Prop :=
  ∀ s t : State, s.run = true → step s = .next t → transfersControl (decode s.fetch.1) = false →
    t.pc = s.pc + 1#16

/-- R14, R39 (b): the console stream only grows, at its end, and only OUT, PUTS, IN, PUTSP and HALT write to it. That a byte
is on the stream when it is written is the spec's own decision D23 (log entry 22), the texts of IN and HALT are parameters by
its D12 (log entry 3). -/
def Obligations.ConsoleOnlyGrowsByItsRoutines : Prop :=
  ∀ s t : State, s.run = true → step s = .next t →
    s.console <+: t.console ∧ (writesConsole (decode s.fetch.1) = false → t.console = s.console)

/-- R13, R39 (a): characters are consumed in the order they come, and only by GETC, IN and polls of 0xFE00: GETC and IN
consume exactly one, a step of another instruction whose fetch and reads do not poll consumes none and leaves the input source
as it is, and with the decoder absent no read polls. Which reads poll is the spec's own decision D6 (log entry 15), the form
of the input the model's (log entry 4). The decoder is its D15 (log entry 7). -/
def Obligations.CharactersAreConsumedInOrder : Prop :=
  ∀ s t : State, s.run = true → step s = .next t →
    charsOf t <:+ charsOf s ∧
    (asksForChar (decode s.fetch.1) = true → t.input = s.input.tail) ∧
    (asksForChar (decode s.fetch.1) = false → ¬ Polls s s.pc →
      (∀ a ∈ readAddrs (decode s.fetch.1) s.fetch.2, ¬ Polls s a) → t.input = s.input) ∧
    (s.cfg.kbdMmio = false → t.input = if asksForChar (decode s.fetch.1) then s.input.tail else s.input)

/-- R30, R31, R86, R151, R154: from a running core without a fault, a step clears `RUN` exactly when it is a HALT or raises a
fault; a fault's info is the word fetched and its cause the one the instruction can raise; a HALT records none. The causes by
opcode 0x8 and 0xD rest on the spec's own decision D1 (log entry 12); the record, the fault of an undefined vector and that of
an overrun are its own decisions D8, D9 and D11 (log entry 16). -/
def Obligations.RunStopsOnlyByHaltOrFault : Prop :=
  ∀ s t : State, s.run = true → s.fault = none → step s = .next t →
    (t.run = false ↔ (∃ u, decode s.fetch.1 = .trapHalt u) ∨ t.fault ≠ none) ∧
    (∀ f, t.fault = some f → f.info = s.fetch.1 ∧
      match f.cause with
      | .illegalOpcodeRti => s.fetch.1.extractLsb' 12 4 = 0x8#4
      | .illegalOpcodeRes => s.fetch.1.extractLsb' 12 4 = 0xD#4
      | .undefinedTrap => s.fetch.1.extractLsb' 12 4 = 0xF#4 ∧
          ((s.fetch.1.extractLsb' 0 8).toNat < 0x20 ∨ 0x25 < (s.fetch.1.extractLsb' 0 8).toNat)
      | .stringOverrun => s.fetch.1.extractLsb' 12 4 = 0xF#4 ∧
          (s.fetch.1.extractLsb' 0 8 = 0x22#8 ∨ s.fetch.1.extractLsb' 0 8 = 0x24#8)) ∧
    (∀ u, decode s.fetch.1 = .trapHalt u → t.run = false ∧ t.fault = none)

/-- Property 9 of 95_test_vectors.md, part 4: a step that reads no keyboard status cell and is no GETC or IN does not depend
on the input source: with any other input it does the same and leaves that input alone. Which reads poll is the spec's own
decision D6 (log entry 15), the decoder its D15 (log entry 7), the form of the input the model's choice (log entry 4). -/
def Obligations.StepWithoutInputReadsIgnoresTheInput : Prop :=
  ∀ (s : State) (inp : List Keystroke), s.run = true → ¬ Polls s s.pc →
    asksForChar (decode (s.getCell s.pc)) = false →
    (∀ a ∈ readAddrs (decode (s.getCell s.pc)) (s.setPc (s.pc + 1#16)), ¬ Polls s a) →
    step (withInput inp s) = mapState (withInput inp) (step s)

/-- R14, R86, over whole runs: however many steps run, the console keeps what was written, the parameters stay, and once
stopped the machine stays as it stopped. That a stopped core's step is answered is the model's choice (log entry 9), and so is
that the parameters stand in the state (log entry 7); the frozen state is the spec's own decision D18 (log entry 20), the
stream its D23 (log entry 22). -/
def Obligations.RunsKeepTheConsoleAndStayStopped : Prop :=
  ∀ (k j : Nat) (s t : State), core.run k s = .next t →
    s.console <+: t.console ∧ t.cfg = s.cfg ∧ (t.run = false → core.run (k + j) s = .next t)
end

