-- ==== Sys2Proof/Laws/Decode.lean ====
section
/-! SUPPORT. Fields of masked and of composed words: what the decoder finds in a word of a table row and in an encoded word. -/

namespace Sys2Proof.Laws

open Sys2Proof

@[simp] theorem bits_toFin (x : BitVec 3) : Reg.bits x.toFin = x := rfl

@[simp] theorem toFin_bits (r : Reg) : (Reg.bits r).toFin = r := rfl

@[simp] theorem bits_regAt (w : Word) (lo : Nat) : Reg.bits (regAt w lo) = w.extractLsb' lo 3 := rfl

theorem regAt_eq {w : Word} {lo : Nat} {r : Reg} (h : w.extractLsb' lo 3 = r.bits) : regAt w lo = r := by
  rw [regAt, h, toFin_bits]

/-! ### Words of a row (R71) -/

/-- A mask that covers the opcode field gives the opcode of the row. -/
theorem opcodeOf_of_masked {w m v : Word} (h : w &&& m = v) (hm : opcodeOf m = 0xF#4) : opcodeOf w = opcodeOf v := by
  have h1 : opcodeOf w &&& opcodeOf m = opcodeOf v := by
    rw [← h, opcodeOf, opcodeOf, opcodeOf, BitVec.extractLsb'_and]
  rw [hm] at h1
  have h2 : opcodeOf w &&& 0xF#4 = opcodeOf w := BitVec.and_allOnes
  rw [← h1, h2]

/-- A mask that covers the vector field gives the vector of the row. -/
theorem vector_of_masked {w m v : Word} (h : w &&& m = v) (hm : m.extractLsb' 0 8 = 0xFF#8) :
    w.extractLsb' 0 8 = v.extractLsb' 0 8 := by
  have h1 : w.extractLsb' 0 8 &&& m.extractLsb' 0 8 = v.extractLsb' 0 8 := by
    rw [← h, BitVec.extractLsb'_and]
  rw [hm] at h1
  have h2 : w.extractLsb' 0 8 &&& 0xFF#8 = w.extractLsb' 0 8 := BitVec.and_allOnes
  rw [← h1, h2]

/-- A mask that covers a bit gives the row's value of it. -/
theorem bit_of_masked {w m v : Word} (h : w &&& m = v) {i : Nat} (hi : i < 16) (hm : m[i] = true) : w[i] = v[i] := by
  subst h
  simp [hm]

/-! ### Placed fields (R62) -/

/-- A mask on a placed field masks the field. -/
theorem place_and {k : Nat} (f : BitVec k) (lo : Nat) (m : Word) :
    place f lo &&& m = place (f &&& m.extractLsb' lo k) lo := by
  ext i hi
  simp only [place, BitVec.getElem_and, BitVec.getElem_shiftLeft, BitVec.getElem_setWidth, BitVec.getLsbD_and,
    BitVec.getLsbD_extractLsb']
  by_cases h : i < lo
  · simp [h]
  · by_cases hk : i - lo < k
    · have : lo + (i - lo) = i := by omega
      simp [h, hk, this, BitVec.getLsbD_eq_getElem hi]
    · simp [h, hk, BitVec.getLsbD_of_ge _ _ (Nat.le_of_not_lt hk)]

theorem place_zero {k : Nat} (lo : Nat) : place 0#k lo = 0#16 := by simp [place]

theorem or_and_mask (a b m : Word) : (a ||| b) &&& m = a &&& m ||| b &&& m := by
  ext i hi; simp [Bool.and_or_distrib_right]

/-- A placed field is read back whole. -/
theorem extract_place {k : Nat} (f : BitVec k) (lo : Nat) (h : lo + k ≤ 16) : (place f lo).extractLsb' lo k = f := by
  ext i hi
  have h1 : lo + i < 16 := by omega
  have h2 : lo + i - lo = i := by omega
  simp [place, h1, h2, BitVec.getLsbD_eq_getElem hi]

/-- A placed field leaves all other fields zero. -/
theorem extract_place_off {k n : Nat} (f : BitVec k) (lo a : Nat) (h : lo + k ≤ a ∨ a + n ≤ lo) :
    (place f lo).extractLsb' a n = 0#n := by
  ext i hi
  simp only [place, BitVec.getElem_extractLsb', BitVec.getLsbD_shiftLeft, BitVec.getLsbD_setWidth, BitVec.getElem_zero]
  rcases h with h | h
  · have : k ≤ a + i - lo := by omega
    simp [BitVec.getLsbD_of_ge _ _ this]
  · have : a + i < lo := by omega
    simp [this]

theorem extract_or (a b : Word) (lo n : Nat) :
    (a ||| b).extractLsb' lo n = a.extractLsb' lo n ||| b.extractLsb' lo n := by
  ext i hi; simp

/-- One bit of a word as a field of width 1. -/
theorem bit_eq (w : Word) (i : Nat) (h : i < 16) : w[i] = decide (w.extractLsb' i 1 = 1#1) := by
  have e : w.extractLsb' i 1 = BitVec.ofBool w[i] := by
    ext j hj
    have : j = 0 := by omega
    subst this
    simp [BitVec.getLsbD_eq_getElem h]
  rw [e]
  cases w[i] <;> rfl

/-! ### Encoded words (R62) -/

theorem opcodeOf_encodeRRR (op : BitVec 4) (d a b : Reg) (u : BitVec 2) : opcodeOf (encodeRRR op d a b u) = op := by
  ext i hi
  have : i = 0 ∨ i = 1 ∨ i = 2 ∨ i = 3 := by omega
  rcases this with h | h | h | h <;> subst h <;> simp [opcodeOf, encodeRRR, place]

theorem opcodeOf_encodeRRI5 (op : BitVec 4) (d a : Reg) (imm : BitVec 5) : opcodeOf (encodeRRI5 op d a imm) = op := by
  ext i hi
  have : i = 0 ∨ i = 1 ∨ i = 2 ∨ i = 3 := by omega
  rcases this with h | h | h | h <;> subst h <;> simp [opcodeOf, encodeRRI5, place]

theorem opcodeOf_encodeRO9 (op : BitVec 4) (r : Reg) (off : BitVec 9) : opcodeOf (encodeRO9 op r off) = op := by
  ext i hi
  have : i = 0 ∨ i = 1 ∨ i = 2 ∨ i = 3 := by omega
  rcases this with h | h | h | h <;> subst h <;> simp [opcodeOf, encodeRO9, place]

theorem opcodeOf_encodeRBO6 (op : BitVec 4) (r b : Reg) (low : BitVec 6) : opcodeOf (encodeRBO6 op r b low) = op := by
  ext i hi
  have : i = 0 ∨ i = 1 ∨ i = 2 ∨ i = 3 := by omega
  rcases this with h | h | h | h <;> subst h <;> simp [opcodeOf, encodeRBO6, place]

theorem opcodeOf_encodeNone (op : BitVec 4) (u : BitVec 12) : opcodeOf (encodeNone op u) = op := by
  ext i hi
  have : i = 0 ∨ i = 1 ∨ i = 2 ∨ i = 3 := by omega
  rcases this with h | h | h | h <;> subst h <;> simp [opcodeOf, encodeNone, place]

theorem opcodeOf_encodeTrap (u : BitVec 4) (v : BitVec 8) : opcodeOf (encodeTrap u v) = 0xF#4 := by
  ext i hi
  have : i = 0 ∨ i = 1 ∨ i = 2 ∨ i = 3 := by omega
  rcases this with h | h | h | h <;> subst h <;> simp [opcodeOf, encodeTrap, place]

theorem vector_encodeTrap (u : BitVec 4) (v : BitVec 8) : (encodeTrap u v).extractLsb' 0 8 = v := by
  ext i hi
  have : i = 0 ∨ i = 1 ∨ i = 2 ∨ i = 3 ∨ i = 4 ∨ i = 5 ∨ i = 6 ∨ i = 7 := by omega
  rcases this with h | h | h | h | h | h | h | h <;> subst h <;> simp [encodeTrap, place]

theorem unused_encodeTrap (u : BitVec 4) (v : BitVec 8) : (encodeTrap u v).extractLsb' 8 4 = u := by
  ext i hi
  have : i = 0 ∨ i = 1 ∨ i = 2 ∨ i = 3 := by omega
  rcases this with h | h | h | h <;> subst h <;> simp [encodeTrap, place]

/-- Opcode 0xF goes to the vector dispatch (R70). -/
theorem decode_of_opcodeF {w : Word} (h : opcodeOf w = 0xF#4) : decode w = decodeTrap w := by
  simp [decode, h]

/-- R68, R70: a vector outside 0x20 to 0x25 goes to TRAP_UNDEF. -/
theorem decodeTrap_undef {w : Word} (h : definedTrapVector (w.extractLsb' 0 8) = false) :
    decodeTrap w = .trapUndef (w.extractLsb' 8 4) (w.extractLsb' 0 8) := by
  unfold decodeTrap
  split <;> first | rfl | (rename_i e; rw [e] at h; simp [definedTrapVector] at h)

end Sys2Proof.Laws
end

