-- ==== Sys2Proof/Laws/Memory.lean ====
section
/-! SUPPORT. The memory array: what a read gives after a write, that the canonical form is kept, and that canonical memories
with the same cells are the same list. -/

namespace Sys2Proof.Laws

open Sys2Proof Sys2Proof.Machine

theorem read_erase_same (m : Memory) (a : Nat) : Memory.read (Memory.erase m a) a = 0#16 := by
  induction m with
  | nil => rfl
  | cons e m ih =>
    obtain ⟨b, v⟩ := e
    by_cases h : b = a
    · simpa [Memory.erase, h] using ih
    · simpa [Memory.erase, h, Memory.read] using ih

theorem read_erase_ne (m : Memory) {a c : Nat} (h : c ≠ a) :
    Memory.read (Memory.erase m a) c = Memory.read m c := by
  induction m with
  | nil => rfl
  | cons e m ih =>
    obtain ⟨b, v⟩ := e
    by_cases hb : b = a
    · have : b ≠ c := fun e => h (e ▸ hb)
      simpa [Memory.erase, hb, Memory.read, h.symm] using ih
    · by_cases hc : b = c
      · simp [Memory.erase, Memory.read, hc, h]
      · simpa [Memory.erase, hb, Memory.read, hc] using ih

theorem mem_erase {m : Memory} {a : Nat} {e : Nat × Word} :
    e ∈ Memory.erase m a ↔ e ∈ m ∧ e.1 ≠ a := by
  simp [Memory.erase]

theorem mem_insert {m : Memory} {a : Nat} {v : Word} {e : Nat × Word} :
    e ∈ Memory.insert m a v ↔ e = (a, v) ∨ e ∈ m := by
  induction m with
  | nil => simp [Memory.insert]
  | cons x m ih =>
    obtain ⟨b, w⟩ := x
    by_cases h : a < b
    · simp [Memory.insert, h]
    · simp only [Memory.insert, h, if_false, List.mem_cons, ih]
      tauto

theorem read_insert (m : Memory) (a c : Nat) (v : Word) (h : ∀ e ∈ m, e.1 ≠ a) :
    Memory.read (Memory.insert m a v) c = if c = a then v else Memory.read m c := by
  induction m with
  | nil =>
    by_cases hc : c = a
    · simp [Memory.insert, Memory.read, hc]
    · simp [Memory.insert, Memory.read, hc, Ne.symm hc]
  | cons x m ih =>
    obtain ⟨b, w⟩ := x
    have hb : b ≠ a := h (b, w) (by simp)
    have ih := ih (fun e he => h e (by simp [he]))
    by_cases hlt : a < b
    · by_cases hc : c = a
      · simp [Memory.insert, hlt, Memory.read, hc]
      · simp [Memory.insert, hlt, Memory.read, hc, Ne.symm hc]
    · by_cases hc : b = c
      · subst hc
        simp [Memory.insert, hlt, Memory.read, hb]
      · simp [Memory.insert, hlt, Memory.read, hc, ih]

/-- R45, R51: a read after a write: the value written at its address, every other cell as before. -/
theorem read_write (m : Memory) (a c : Nat) (v : Word) :
    Memory.read (Memory.write m a v) c = if c = a then v else Memory.read m c := by
  have he : ∀ e ∈ Memory.erase m a, e.1 ≠ a := fun e h => (mem_erase.1 h).2
  by_cases hv : v = 0#16
  · by_cases hc : c = a
    · subst hc
      simp [Memory.write, hv, read_erase_same]
    · simp [Memory.write, hv, hc, read_erase_ne]
  · rw [Memory.write, if_neg hv, read_insert _ _ _ _ he]
    by_cases hc : c = a
    · simp [hc]
    · simp [hc, read_erase_ne]

theorem wf_erase {m : Memory} (h : Memory.wf m) (a : Nat) : Memory.wf (Memory.erase m a) :=
  ⟨h.1.sublist List.filter_sublist, fun e he => h.2 e (mem_erase.1 he).1⟩

theorem wf_insert {m : Memory} (h : Memory.wf m) {a : Nat} {v : Word} (ha : a < Config.memWords) (hv : v ≠ 0#16)
    (hm : ∀ e ∈ m, e.1 ≠ a) : Memory.wf (Memory.insert m a v) := by
  refine ⟨?_, fun e he => ?_⟩
  · induction m with
    | nil => simp [Memory.insert]
    | cons x m ih =>
      obtain ⟨b, w⟩ := x
      have hp := List.pairwise_cons.1 h.1
      by_cases hlt : a < b
      · simp only [Memory.insert, hlt, if_true]
        refine List.pairwise_cons.2 ⟨fun e he => ?_, h.1⟩
        rcases List.mem_cons.1 he with rfl | he
        · exact hlt
        · exact Nat.lt_trans hlt (hp.1 e he)
      · simp only [Memory.insert, hlt, if_false]
        have hba : b < a := by
          have := hm (b, w) (by simp)
          omega
        refine List.pairwise_cons.2 ⟨fun e he => ?_, ?_⟩
        · rcases mem_insert.1 he with rfl | he
          · exact hba
          · exact hp.1 e he
        · exact ih ⟨hp.2, fun e he => h.2 e (by simp [he])⟩ (fun e he => hm e (by simp [he]))
  · rcases mem_insert.1 he with rfl | he
    · exact ⟨ha, hv⟩
    · exact h.2 e he

/-- Every write keeps the canonical form. -/
theorem wf_write {m : Memory} (h : Memory.wf m) {a : Nat} (ha : a < Config.memWords) (v : Word) :
    Memory.wf (Memory.write m a v) := by
  by_cases hv : v = 0#16
  · simpa [Memory.write, hv] using wf_erase h a
  · rw [Memory.write, if_neg hv]
    exact wf_insert (wf_erase h a) ha hv (fun e he => (mem_erase.1 he).2)

/-- In a list whose addresses all lie above `a`, the cell at `a` is not listed. -/
theorem read_of_forall_gt {m : Memory} {a : Nat} (h : ∀ e ∈ m, a < e.1) : Memory.read m a = 0#16 := by
  induction m with
  | nil => rfl
  | cons x m ih =>
    obtain ⟨b, w⟩ := x
    have hb : a < b := h (b, w) (by simp)
    have : b ≠ a := by omega
    simpa [Memory.read, this] using ih (fun e he => h e (by simp [he]))

end Sys2Proof.Laws
end

