-- ==== Sys2Proof/Laws/State.lean ====
section
/-! SUPPORT. One lemma per field of the state per named update, so that no later proof unfolds a record update. -/

namespace Sys2Proof.Laws

open Sys2Proof Sys2Proof.Machine

variable (s : State)

/-! ### The register file -/

@[simp] theorem getReg_setReg_same (r : Reg) (v : Word) : (s.setReg r v).getReg r = v := by
  simp [State.setReg, State.getReg]

theorem getReg_setReg_ne (v : Word) {r q : Reg} (h : q ≠ r) : (s.setReg r v).getReg q = s.getReg q := by
  have h' : (r : Nat) ≠ (q : Nat) := fun e => h (Fin.ext e.symm)
  simp [State.setReg, State.getReg, h']

theorem getReg_setReg (r q : Reg) (v : Word) : (s.setReg r v).getReg q = if q = r then v else s.getReg q := by
  by_cases h : q = r
  · subst h; simp
  · simp [h, getReg_setReg_ne]

/-! ### `setReg` -/

@[simp] theorem setReg_regs (r : Reg) (v : Word) : (s.setReg r v).regs = s.regs.set r v := rfl
@[simp] theorem setReg_pc (r : Reg) (v : Word) : (s.setReg r v).pc = s.pc := rfl
@[simp] theorem setReg_cond (r : Reg) (v : Word) : (s.setReg r v).cond = s.cond := rfl
@[simp] theorem setReg_run (r : Reg) (v : Word) : (s.setReg r v).run = s.run := rfl
@[simp] theorem setReg_fault (r : Reg) (v : Word) : (s.setReg r v).fault = s.fault := rfl
@[simp] theorem setReg_mem (r : Reg) (v : Word) : (s.setReg r v).mem = s.mem := rfl
@[simp] theorem setReg_input (r : Reg) (v : Word) : (s.setReg r v).input = s.input := rfl
@[simp] theorem setReg_console (r : Reg) (v : Word) : (s.setReg r v).console = s.console := rfl
@[simp] theorem setReg_cfg (r : Reg) (v : Word) : (s.setReg r v).cfg = s.cfg := rfl
@[simp] theorem setReg_getCell (r : Reg) (v : Word) (a : Word) : (s.setReg r v).getCell a = s.getCell a := rfl

/-! ### `setPc` -/

@[simp] theorem setPc_regs (t : Word) : (s.setPc t).regs = s.regs := rfl
@[simp] theorem setPc_pc (t : Word) : (s.setPc t).pc = t := rfl
@[simp] theorem setPc_cond (t : Word) : (s.setPc t).cond = s.cond := rfl
@[simp] theorem setPc_run (t : Word) : (s.setPc t).run = s.run := rfl
@[simp] theorem setPc_fault (t : Word) : (s.setPc t).fault = s.fault := rfl
@[simp] theorem setPc_mem (t : Word) : (s.setPc t).mem = s.mem := rfl
@[simp] theorem setPc_input (t : Word) : (s.setPc t).input = s.input := rfl
@[simp] theorem setPc_console (t : Word) : (s.setPc t).console = s.console := rfl
@[simp] theorem setPc_cfg (t : Word) : (s.setPc t).cfg = s.cfg := rfl
@[simp] theorem setPc_getReg (t : Word) (q : Reg) : (s.setPc t).getReg q = s.getReg q := rfl
@[simp] theorem setPc_getCell (t : Word) (a : Word) : (s.setPc t).getCell a = s.getCell a := rfl

/-! ### `setCC` -/

@[simp] theorem setCC_regs (v : Word) : (s.setCC v).regs = s.regs := rfl
@[simp] theorem setCC_pc (v : Word) : (s.setCC v).pc = s.pc := rfl
@[simp] theorem setCC_cond (v : Word) : (s.setCC v).cond = condOf v := rfl
@[simp] theorem setCC_run (v : Word) : (s.setCC v).run = s.run := rfl
@[simp] theorem setCC_fault (v : Word) : (s.setCC v).fault = s.fault := rfl
@[simp] theorem setCC_mem (v : Word) : (s.setCC v).mem = s.mem := rfl
@[simp] theorem setCC_input (v : Word) : (s.setCC v).input = s.input := rfl
@[simp] theorem setCC_console (v : Word) : (s.setCC v).console = s.console := rfl
@[simp] theorem setCC_cfg (v : Word) : (s.setCC v).cfg = s.cfg := rfl
@[simp] theorem setCC_getReg (v : Word) (q : Reg) : (s.setCC v).getReg q = s.getReg q := rfl
@[simp] theorem setCC_getCell (v : Word) (a : Word) : (s.setCC v).getCell a = s.getCell a := rfl

/-! ### `setCell` -/

@[simp] theorem setCell_regs (a v : Word) : (s.setCell a v).regs = s.regs := rfl
@[simp] theorem setCell_pc (a v : Word) : (s.setCell a v).pc = s.pc := rfl
@[simp] theorem setCell_cond (a v : Word) : (s.setCell a v).cond = s.cond := rfl
@[simp] theorem setCell_run (a v : Word) : (s.setCell a v).run = s.run := rfl
@[simp] theorem setCell_fault (a v : Word) : (s.setCell a v).fault = s.fault := rfl
@[simp] theorem setCell_mem (a v : Word) : (s.setCell a v).mem = Memory.write s.mem a.toNat v := rfl
@[simp] theorem setCell_input (a v : Word) : (s.setCell a v).input = s.input := rfl
@[simp] theorem setCell_console (a v : Word) : (s.setCell a v).console = s.console := rfl
@[simp] theorem setCell_cfg (a v : Word) : (s.setCell a v).cfg = s.cfg := rfl
@[simp] theorem setCell_getReg (a v : Word) (q : Reg) : (s.setCell a v).getReg q = s.getReg q := rfl

/-! ### `memWrite` -/

@[simp] theorem memWrite_regs (a v : Word) : (s.memWrite a v).regs = s.regs := rfl
@[simp] theorem memWrite_pc (a v : Word) : (s.memWrite a v).pc = s.pc := rfl
@[simp] theorem memWrite_cond (a v : Word) : (s.memWrite a v).cond = s.cond := rfl
@[simp] theorem memWrite_run (a v : Word) : (s.memWrite a v).run = s.run := rfl
@[simp] theorem memWrite_fault (a v : Word) : (s.memWrite a v).fault = s.fault := rfl
@[simp] theorem memWrite_mem (a v : Word) : (s.memWrite a v).mem = Memory.write s.mem a.toNat v := rfl
@[simp] theorem memWrite_input (a v : Word) : (s.memWrite a v).input = s.input := rfl
@[simp] theorem memWrite_console (a v : Word) : (s.memWrite a v).console = s.console := rfl
@[simp] theorem memWrite_cfg (a v : Word) : (s.memWrite a v).cfg = s.cfg := rfl
@[simp] theorem memWrite_getReg (a v : Word) (q : Reg) : (s.memWrite a v).getReg q = s.getReg q := rfl

/-! ### `consoleWrite` -/

@[simp] theorem consoleWrite_regs (b : Byte) : (s.consoleWrite b).regs = s.regs := rfl
@[simp] theorem consoleWrite_pc (b : Byte) : (s.consoleWrite b).pc = s.pc := rfl
@[simp] theorem consoleWrite_cond (b : Byte) : (s.consoleWrite b).cond = s.cond := rfl
@[simp] theorem consoleWrite_run (b : Byte) : (s.consoleWrite b).run = s.run := rfl
@[simp] theorem consoleWrite_fault (b : Byte) : (s.consoleWrite b).fault = s.fault := rfl
@[simp] theorem consoleWrite_mem (b : Byte) : (s.consoleWrite b).mem = s.mem := rfl
@[simp] theorem consoleWrite_input (b : Byte) : (s.consoleWrite b).input = s.input := rfl
@[simp] theorem consoleWrite_console (b : Byte) : (s.consoleWrite b).console = s.console ++ [b] := rfl
@[simp] theorem consoleWrite_cfg (b : Byte) : (s.consoleWrite b).cfg = s.cfg := rfl
@[simp] theorem consoleWrite_getReg (b : Byte) (q : Reg) : (s.consoleWrite b).getReg q = s.getReg q := rfl
@[simp] theorem consoleWrite_getCell (b : Byte) (a : Word) : (s.consoleWrite b).getCell a = s.getCell a := rfl

/-! ### `consoleWriteAll` -/

@[simp] theorem consoleWriteAll_regs (bs : List Byte) : (s.consoleWriteAll bs).regs = s.regs := rfl
@[simp] theorem consoleWriteAll_pc (bs : List Byte) : (s.consoleWriteAll bs).pc = s.pc := rfl
@[simp] theorem consoleWriteAll_cond (bs : List Byte) : (s.consoleWriteAll bs).cond = s.cond := rfl
@[simp] theorem consoleWriteAll_run (bs : List Byte) : (s.consoleWriteAll bs).run = s.run := rfl
@[simp] theorem consoleWriteAll_fault (bs : List Byte) : (s.consoleWriteAll bs).fault = s.fault := rfl
@[simp] theorem consoleWriteAll_mem (bs : List Byte) : (s.consoleWriteAll bs).mem = s.mem := rfl
@[simp] theorem consoleWriteAll_input (bs : List Byte) : (s.consoleWriteAll bs).input = s.input := rfl
@[simp] theorem consoleWriteAll_console (bs : List Byte) : (s.consoleWriteAll bs).console = s.console ++ bs := rfl
@[simp] theorem consoleWriteAll_cfg (bs : List Byte) : (s.consoleWriteAll bs).cfg = s.cfg := rfl
@[simp] theorem consoleWriteAll_getReg (bs : List Byte) (q : Reg) : (s.consoleWriteAll bs).getReg q = s.getReg q := rfl
@[simp] theorem consoleWriteAll_getCell (bs : List Byte) (a : Word) : (s.consoleWriteAll bs).getCell a = s.getCell a := rfl

/-! ### `raiseFault` -/

@[simp] theorem raiseFault_regs (c : FaultCause) (w : Word) : (s.raiseFault c w).regs = s.regs := rfl
@[simp] theorem raiseFault_pc (c : FaultCause) (w : Word) : (s.raiseFault c w).pc = s.pc := rfl
@[simp] theorem raiseFault_cond (c : FaultCause) (w : Word) : (s.raiseFault c w).cond = s.cond := rfl
@[simp] theorem raiseFault_run (c : FaultCause) (w : Word) : (s.raiseFault c w).run = false := rfl
@[simp] theorem raiseFault_fault (c : FaultCause) (w : Word) : (s.raiseFault c w).fault = some ⟨c, w⟩ := rfl
@[simp] theorem raiseFault_mem (c : FaultCause) (w : Word) : (s.raiseFault c w).mem = s.mem := rfl
@[simp] theorem raiseFault_input (c : FaultCause) (w : Word) : (s.raiseFault c w).input = s.input := rfl
@[simp] theorem raiseFault_console (c : FaultCause) (w : Word) : (s.raiseFault c w).console = s.console := rfl
@[simp] theorem raiseFault_cfg (c : FaultCause) (w : Word) : (s.raiseFault c w).cfg = s.cfg := rfl
@[simp] theorem raiseFault_getReg (c : FaultCause) (w : Word) (q : Reg) : (s.raiseFault c w).getReg q = s.getReg q := rfl
@[simp] theorem raiseFault_getCell (c : FaultCause) (w : Word) (a : Word) : (s.raiseFault c w).getCell a = s.getCell a := rfl

/-! ### `stop` -/

@[simp] theorem stop_regs : (s.stop).regs = s.regs := rfl
@[simp] theorem stop_pc : (s.stop).pc = s.pc := rfl
@[simp] theorem stop_cond : (s.stop).cond = s.cond := rfl
@[simp] theorem stop_run : (s.stop).run = false := rfl
@[simp] theorem stop_fault : (s.stop).fault = s.fault := rfl
@[simp] theorem stop_mem : (s.stop).mem = s.mem := rfl
@[simp] theorem stop_input : (s.stop).input = s.input := rfl
@[simp] theorem stop_console : (s.stop).console = s.console := rfl
@[simp] theorem stop_cfg : (s.stop).cfg = s.cfg := rfl
@[simp] theorem stop_getReg (q : Reg) : (s.stop).getReg q = s.getReg q := rfl
@[simp] theorem stop_getCell (a : Word) : (s.stop).getCell a = s.getCell a := rfl

/-! ### `enterTrap` -/

@[simp] theorem enterTrap_regs : (s.enterTrap).regs = s.regs.set 7 s.pc := rfl
@[simp] theorem enterTrap_pc : (s.enterTrap).pc = s.pc := rfl
@[simp] theorem enterTrap_cond : (s.enterTrap).cond = s.cond := rfl
@[simp] theorem enterTrap_run : (s.enterTrap).run = s.run := rfl
@[simp] theorem enterTrap_fault : (s.enterTrap).fault = s.fault := rfl
@[simp] theorem enterTrap_mem : (s.enterTrap).mem = s.mem := rfl
@[simp] theorem enterTrap_input : (s.enterTrap).input = s.input := rfl
@[simp] theorem enterTrap_console : (s.enterTrap).console = s.console := rfl
@[simp] theorem enterTrap_cfg : (s.enterTrap).cfg = s.cfg := rfl
@[simp] theorem enterTrap_getCell (a : Word) : (s.enterTrap).getCell a = s.getCell a := rfl

/-! ### A new input source -/

@[simp] theorem withInput_getReg (inp : List Keystroke) (q : Reg) : ({ s with input := inp } : State).getReg q = s.getReg q := rfl

@[simp] theorem withInput_getCell (inp : List Keystroke) (a : Word) : ({ s with input := inp } : State).getCell a = s.getCell a := rfl

/-! ### `consoleFlush`, `writeResult`, `deliverChar` -/

@[simp] theorem consoleFlush_eq : s.consoleFlush = s := rfl

/-- R85: the value read back is the value written, so `SetCC` sees it. -/
@[simp] theorem writeResult_eq (d : Reg) (v : Word) : s.writeResult d v = (s.setReg d v).setCC v := by
  simp [State.writeResult]

@[simp] theorem deliverChar_eq (c : Byte) : s.deliverChar c = (s.setReg 0 (zext16 c)).setCC (zext16 c) := by
  simp [State.deliverChar]

/-- R14: writing a list of bytes is writing each, in order. -/
theorem consoleWriteAll_eq_foldl (bs : List Byte) : s.consoleWriteAll bs = bs.foldl State.consoleWrite s := by
  induction bs generalizing s with
  | nil => simp [State.consoleWriteAll]
  | cons b bs ih => simp [← ih, State.consoleWriteAll, State.consoleWrite]

/-- R130: the register file after a TRAP's common part. -/
theorem enterTrap_eq : s.enterTrap = s.setReg 7 s.pc := rfl

theorem enterTrap_getReg_ne {q : Reg} (h : q ≠ 7) : s.enterTrap.getReg q = s.getReg q := getReg_setReg_ne s s.pc h

@[simp] theorem enterTrap_getReg_seven : s.enterTrap.getReg 7 = s.pc := getReg_setReg_same s 7 s.pc

end Sys2Proof.Laws
end

