-- ==== Sys2Proof/Laws/Ops.lean ====
section
/-! SUPPORT. One lemma per shared operation that says what it can do: cells, the keyboard poll, reads, fetch, the string loop. -/

namespace Sys2Proof.Laws

open Sys2Proof Sys2Proof.Machine

variable (s : State)

/-! ### Cells -/

theorem getCell_setCell (a c v : Word) : (s.setCell a v).getCell c = if c = a then v else s.getCell c := by
  have h : (c.toNat = a.toNat) ↔ c = a := ⟨fun e => BitVec.eq_of_toNat_eq e, fun e => by rw [e]⟩
  simp only [State.getCell, State.setCell, read_write, h]

@[simp] theorem getCell_setCell_same (a v : Word) : (s.setCell a v).getCell a = v := by
  simp [getCell_setCell]

theorem getCell_setCell_ne (v : Word) {a c : Word} (h : c ≠ a) : (s.setCell a v).getCell c = s.getCell c := by
  simp [getCell_setCell, h]

@[simp] theorem memWrite_eq (a v : Word) : s.memWrite a v = s.setCell a v := rfl

theorem setCell_wf {s : State} (h : Memory.wf s.mem) (a v : Word) : Memory.wf (s.setCell a v).mem :=
  wf_write h a.isLt v

/-! ### The input source and the keyboard poll (R12, R13, R44) -/

/-- U13: after `KeyAvailable` answered true, `ReadChar` returns at once. -/
theorem readChar_of_keyAvailable (h : s.keyAvailable = true) :
    ∃ c rest, s.input = ⟨0, c⟩ :: rest ∧ s.readChar = some (c, { s with input := rest }) := by
  unfold State.keyAvailable at h
  split at h
  · simp at h
  · rename_i k rest hk
    obtain ⟨q, c⟩ := k
    simp only [decide_eq_true_eq] at h
    subst h
    exact ⟨c, rest, hk, by simp [State.readChar, hk]⟩

/-- R44: the poll that finds a key. -/
theorem pollKeyboard_ready {c : Byte} {rest : List Keystroke} (h : s.input = ⟨0, c⟩ :: rest) :
    s.pollKeyboard =
      (({ s with input := rest } : State).setCell Config.kbsrAddr 0x8000#16).setCell Config.kbdrAddr (zext16 c) := by
  simp [State.pollKeyboard, State.keyAvailable, State.readChar, h]

/-- R44: the poll that finds none. -/
theorem pollKeyboard_quiet (h : s.keyAvailable = false) :
    s.pollKeyboard = s.passQuietPoll.setCell Config.kbsrAddr 0x0000#16 := by
  simp [State.pollKeyboard, h]

/-- A quiet poll changes nothing but the schedule of the next character. -/
theorem passQuietPoll_eq : s.passQuietPoll = { s with input := s.passQuietPoll.input } := by
  unfold State.passQuietPoll
  split <;> rfl

/-- A quiet poll consumes no character. -/
theorem passQuietPoll_chars : s.passQuietPoll.input.map Keystroke.char = s.input.map Keystroke.char := by
  unfold State.passQuietPoll
  split <;> simp_all

/-- R44: everything a poll can do: it writes the keyboard cells and the input source and nothing else. -/
theorem pollKeyboard_cases :
    (∃ c rest, s.input = ⟨0, c⟩ :: rest ∧ s.pollKeyboard =
      (({ s with input := rest } : State).setCell Config.kbsrAddr 0x8000#16).setCell Config.kbdrAddr (zext16 c)) ∨
    (s.keyAvailable = false ∧
      s.pollKeyboard = ({ s with input := s.passQuietPoll.input } : State).setCell Config.kbsrAddr 0x0000#16) := by
  cases hk : s.keyAvailable with
  | true =>
    obtain ⟨c, rest, h, -⟩ := readChar_of_keyAvailable s hk
    exact .inl ⟨c, rest, h, pollKeyboard_ready s h⟩
  | false => exact .inr ⟨rfl, by rw [pollKeyboard_quiet s hk, ← passQuietPoll_eq]⟩

/-- A read either polls or changes nothing (R44, R48, R49). -/
theorem afterRead_cases (a : Word) :
    (s.pollsAt a = false ∧ s.afterRead a = s) ∨ (s.pollsAt a = true ∧ s.afterRead a = s.pollKeyboard) := by
  cases h : s.pollsAt a <;> simp [State.afterRead, h]

theorem afterRead_plain {a : Word} (h : s.pollsAt a = false) : s.afterRead a = s := by
  simp [State.afterRead, h]

@[simp] theorem memRead_fst (a : Word) : (s.memRead a).1 = (s.afterRead a).getCell a := rfl

@[simp] theorem memRead_snd (a : Word) : (s.memRead a).2 = s.afterRead a := rfl

theorem pollsAt_iff (a : Word) : s.pollsAt a = true ↔ s.cfg.kbdMmio = true ∧ a = Config.kbsrAddr := by
  simp [State.pollsAt]

/-! What a read leaves alone. -/

theorem pollKeyboard_frame : s.pollKeyboard =
    { s with mem := s.pollKeyboard.mem, input := s.pollKeyboard.input } := by
  rcases pollKeyboard_cases s with ⟨c, rest, -, h⟩ | ⟨-, h⟩ <;> rw [h] <;> rfl

theorem afterRead_frame (a : Word) : s.afterRead a =
    { s with mem := (s.afterRead a).mem, input := (s.afterRead a).input } := by
  rcases afterRead_cases s a with ⟨-, h⟩ | ⟨-, h⟩ <;> rw [h]
  exact pollKeyboard_frame s

@[simp] theorem afterRead_regs (a : Word) : (s.afterRead a).regs = s.regs := by rw [afterRead_frame]
@[simp] theorem afterRead_pc (a : Word) : (s.afterRead a).pc = s.pc := by rw [afterRead_frame]
@[simp] theorem afterRead_cond (a : Word) : (s.afterRead a).cond = s.cond := by rw [afterRead_frame]
@[simp] theorem afterRead_run (a : Word) : (s.afterRead a).run = s.run := by rw [afterRead_frame]
@[simp] theorem afterRead_fault (a : Word) : (s.afterRead a).fault = s.fault := by rw [afterRead_frame]
@[simp] theorem afterRead_console (a : Word) : (s.afterRead a).console = s.console := by rw [afterRead_frame]
@[simp] theorem afterRead_cfg (a : Word) : (s.afterRead a).cfg = s.cfg := by rw [afterRead_frame]

@[simp] theorem afterRead_getReg (a : Word) (q : Reg) : (s.afterRead a).getReg q = s.getReg q := by
  simp [State.getReg]

/-- A read changes no cell but the two keyboard cells. -/
theorem afterRead_getCell_ne (a : Word) {c : Word} (h1 : c ≠ Config.kbsrAddr) (h2 : c ≠ Config.kbdrAddr) :
    (s.afterRead a).getCell c = s.getCell c := by
  rcases afterRead_cases s a with ⟨-, h⟩ | ⟨-, h⟩ <;> rw [h]
  rcases pollKeyboard_cases s with ⟨k, rest, -, hp⟩ | ⟨-, hp⟩ <;> rw [hp]
  · rw [getCell_setCell_ne _ _ h2, getCell_setCell_ne _ _ h1]; rfl
  · rw [getCell_setCell_ne _ _ h1]; rfl

/-- A read keeps the canonical form. -/
theorem afterRead_wf {s : State} (h : Memory.wf s.mem) (a : Word) : Memory.wf (s.afterRead a).mem := by
  rcases afterRead_cases s a with ⟨-, e⟩ | ⟨-, e⟩ <;> rw [e]
  · exact h
  · rcases pollKeyboard_cases s with ⟨k, rest, -, hp⟩ | ⟨-, hp⟩ <;> rw [hp]
    · exact setCell_wf (setCell_wf h _ _) _ _
    · exact setCell_wf h _ _

/-! ### Fetch (R81, R82) -/

theorem fetch_eq : s.fetch = ((s.afterRead s.pc).getCell s.pc, (s.afterRead s.pc).setPc (s.pc + 1#16)) := rfl

/-! ### Reads one after another -/

/-- `u` is `s` after some reads and nothing else. -/
inductive ReadsTo : State → State → Prop where
  | refl (s : State) : ReadsTo s s
  | step {s u : State} (a : Word) : ReadsTo (s.afterRead a) u → ReadsTo s u

/-- One read. -/
theorem ReadsTo.one (a : Word) : ReadsTo s (s.afterRead a) := .step a (.refl _)

theorem ReadsTo.trans {s t u : State} (h : ReadsTo s t) (k : ReadsTo t u) : ReadsTo s u := by
  induction h with
  | refl => exact k
  | step a _ ih => exact .step a (ih k)

/-- Reads change memory and the input source only. -/
theorem ReadsTo.frame {s u : State} (h : ReadsTo s u) : u = { s with mem := u.mem, input := u.input } := by
  induction h with
  | refl => rfl
  | step a _ ih => rw [ih, afterRead_frame]

/-- Reads change no cell but the two keyboard cells. -/
theorem ReadsTo.getCell_ne {s u : State} (h : ReadsTo s u) {c : Word} (h1 : c ≠ Config.kbsrAddr)
    (h2 : c ≠ Config.kbdrAddr) : u.getCell c = s.getCell c := by
  induction h with
  | refl => rfl
  | step a _ ih => rw [ih, afterRead_getCell_ne _ a h1 h2]

/-- Reads keep the canonical form. -/
theorem ReadsTo.wf {s u : State} (h : ReadsTo s u) (hw : Memory.wf s.mem) : Memory.wf u.mem := by
  induction h with
  | refl => exact hw
  | step a _ ih => exact ih (afterRead_wf hw a)

/-- A poll consumes the next character or none (R44). -/
theorem afterRead_chars (a : Word) :
    (s.afterRead a).input.map Keystroke.char <:+ s.input.map Keystroke.char := by
  rcases afterRead_cases s a with ⟨-, h⟩ | ⟨-, h⟩
  · rw [h]
  · rw [h]
    rcases pollKeyboard_cases s with ⟨c, rest, hi, hp⟩ | ⟨-, hp⟩ <;> rw [hp]
    · exact ⟨[c], by simp [hi]⟩
    · simp [passQuietPoll_chars]

/-- Reads consume characters in order. -/
theorem ReadsTo.chars {s u : State} (h : ReadsTo s u) :
    u.input.map Keystroke.char <:+ s.input.map Keystroke.char := by
  induction h with
  | refl => exact List.suffix_refl _
  | step a _ ih => exact ih.trans (afterRead_chars _ a)

/-- R12: while a key is pending, a read that consumes no character leaves the input source as it is. -/
theorem afterRead_input_of_keyAvailable (h : s.keyAvailable = true) (a : Word) :
    (s.afterRead a).input = s.input ∨ (s.afterRead a).input.length < s.input.length := by
  rcases afterRead_cases s a with ⟨-, e⟩ | ⟨-, e⟩
  · exact .inl (by rw [e])
  · obtain ⟨c, rest, hi, -⟩ := readChar_of_keyAvailable s h
    rw [e, pollKeyboard_ready s hi]
    exact .inr (by simp [hi])

/-- Reads never add a character. -/
theorem ReadsTo.length_le {s u : State} (h : ReadsTo s u) : u.input.length ≤ s.input.length := by
  simpa using h.chars.length_le

/-- R12: while a key is pending, reads that consume no character leave the input source as it is. -/
theorem ReadsTo.input_of_keyAvailable {s u : State} (h : ReadsTo s u) (hk : s.keyAvailable = true) :
    u.input = s.input ∨ u.input.length < s.input.length := by
  induction h with
  | refl => exact .inl rfl
  | @step s u a hr ih =>
    rcases afterRead_input_of_keyAvailable s hk a with e | e
    · exact e ▸ ih (by simpa [State.keyAvailable, e] using hk)
    · exact .inr (Nat.lt_of_le_of_lt hr.length_le e)

/-- With the decoder absent, reads change nothing (R48). -/
theorem ReadsTo.eq_of_no_decoder {s u : State} (h : ReadsTo s u) (hk : s.cfg.kbdMmio = false) : u = s := by
  induction h with
  | refl => rfl
  | @step s u a _ ih =>
    have e : s.afterRead a = s := afterRead_plain s (by simp [State.pollsAt, hk])
    rw [e] at ih
    exact ih hk

/-! A read does not look at the registers or the console. -/

theorem afterRead_consoleWriteAll (a : Word) (bs : List Byte) :
    (s.consoleWriteAll bs).afterRead a = (s.afterRead a).consoleWriteAll bs := by
  have hk : (s.consoleWriteAll bs).pollsAt a = s.pollsAt a := rfl
  cases h : s.pollsAt a
  · rw [afterRead_plain _ h, afterRead_plain _ (hk.trans h)]
  · simp only [State.afterRead, hk, h, if_true]
    obtain ⟨regs, pc, cond, run, fault, mem, input, console, cfg⟩ := s
    rcases input with _ | ⟨⟨_ | q, c⟩, rest⟩ <;> rfl

theorem ReadsTo.consoleWriteAll {s u : State} {bs : List Byte} (h : ReadsTo (s.consoleWriteAll bs) u) :
    ∃ v, ReadsTo s v ∧ u = v.consoleWriteAll bs := by
  generalize hx : s.consoleWriteAll bs = x at h
  induction h generalizing s with
  | refl => exact ⟨s, .refl s, hx.symm⟩
  | step a _ ih =>
    subst hx
    obtain ⟨v, hv, e⟩ := ih (s := s.afterRead a) (afterRead_consoleWriteAll s a bs).symm
    exact ⟨v, .step a hv, e⟩

theorem consoleWriteAll_append (bs cs : List Byte) :
    (s.consoleWriteAll bs).consoleWriteAll cs = s.consoleWriteAll (bs ++ cs) := by
  simp [State.consoleWriteAll]

@[simp] theorem consoleWriteAll_nil : s.consoleWriteAll [] = s := by simp [State.consoleWriteAll]

/-! ### The string loop (R133, R135) -/

/-- Everything the loop can do: it reads, writes bytes to the console, and may end in StringOverrun. -/
theorem emitString_cases (f : Word → List Byte) (w : Word) (k : Nat) (a : Word) :
    ∃ (bs : List Byte) (u : State), ReadsTo s u ∧
      (State.emitString f w k a s = u.consoleWriteAll bs ∨
        State.emitString f w k a s = (u.consoleWriteAll bs).raiseFault .stringOverrun w) := by
  induction k generalizing a s with
  | zero =>
    unfold State.emitString
    split
    · exact ⟨[], s.afterRead a, .one s a, .inl (by simp)⟩
    · exact ⟨_, s.afterRead a, .one s a, .inr rfl⟩
  | succ k ih =>
    unfold State.emitString
    split
    · exact ⟨[], s.afterRead a, .one s a, .inl (by simp)⟩
    · obtain ⟨bs, u, hr, he⟩ := ih ((s.afterRead a).consoleWriteAll (f (s.memRead a).1)) (a + 1#16)
      obtain ⟨v, hv, rfl⟩ := hr.consoleWriteAll
      rw [consoleWriteAll_append] at he
      exact ⟨_, v, .step a hv, he⟩

end Sys2Proof.Laws
end

