-- ==== Sys2Proof/Laws/PerInstr.lean ====
section
/-! SUPPORT. One lemma per instruction of the family TableRow: the word an instruction is encoded as is selected by the
instruction's own row of the opcode table (spec/30_encoding.md R71). -/

namespace Sys2Proof.Laws

open Sys2Proof

/-- R71: `encode i &&& mask = match` for the row that `i` stands for. -/
def TableRow.Statement (i : Instr) : Prop :=
  i.wf = true → ∃ r ∈ opcodeTable, r.mnemonic = i.mnemonic ∧ r.selects (encode i) = true

/-- A word whose masked bits are the row's value belongs to the row. -/
theorem tableRow_of_masked {i : Instr} (r : OpcodeRow) (hr : r ∈ opcodeTable) (hm : r.mnemonic = i.mnemonic)
    (h : encode i &&& r.mask = r.value) : TableRow.Statement i :=
  fun _ => ⟨r, hr, hm, by simp [OpcodeRow.selects, h]⟩

theorem TableRow.br (n z p : Bool) (off9 : BitVec 9) :
    TableRow.Statement (.br n z p off9) :=
  tableRow_of_masked ⟨"BR", 0x0000#16, 0xF000#16⟩ (by decide) rfl
    (by simp [encode, or_and_mask, place_and, place_zero])

theorem TableRow.add (dr sr1 sr2 : Reg) (unused : BitVec 2) :
    TableRow.Statement (.add dr sr1 sr2 unused) :=
  tableRow_of_masked ⟨"ADD", 0x1000#16, 0xF020#16⟩ (by decide) rfl
    (by simp [encode, encodeRRR, or_and_mask, place_and, place_zero]; rfl)

theorem TableRow.addi (dr sr1 : Reg) (imm5 : BitVec 5) :
    TableRow.Statement (.addi dr sr1 imm5) :=
  tableRow_of_masked ⟨"ADDI", 0x1020#16, 0xF020#16⟩ (by decide) rfl
    (by simp [encode, encodeRRI5, or_and_mask, place_and, place_zero]; rfl)

theorem TableRow.ld (dr : Reg) (off9 : BitVec 9) :
    TableRow.Statement (.ld dr off9) :=
  tableRow_of_masked ⟨"LD", 0x2000#16, 0xF000#16⟩ (by decide) rfl
    (by simp [encode, encodeRO9, or_and_mask, place_and, place_zero]; rfl)

theorem TableRow.st (sr : Reg) (off9 : BitVec 9) :
    TableRow.Statement (.st sr off9) :=
  tableRow_of_masked ⟨"ST", 0x3000#16, 0xF000#16⟩ (by decide) rfl
    (by simp [encode, encodeRO9, or_and_mask, place_and, place_zero]; rfl)

theorem TableRow.jsrr (unusedHi : BitVec 2) (baser : Reg) (unusedLo : BitVec 6) :
    TableRow.Statement (.jsrr unusedHi baser unusedLo) :=
  tableRow_of_masked ⟨"JSRR", 0x4000#16, 0xF800#16⟩ (by decide) rfl
    (by simp [encode, or_and_mask, place_and, place_zero]; rfl)

theorem TableRow.jsr (off11 : BitVec 11) :
    TableRow.Statement (.jsr off11) :=
  tableRow_of_masked ⟨"JSR", 0x4800#16, 0xF800#16⟩ (by decide) rfl
    (by simp [encode, or_and_mask, place_and, place_zero]; rfl)

theorem TableRow.and (dr sr1 sr2 : Reg) (unused : BitVec 2) :
    TableRow.Statement (.and dr sr1 sr2 unused) :=
  tableRow_of_masked ⟨"AND", 0x5000#16, 0xF020#16⟩ (by decide) rfl
    (by simp [encode, encodeRRR, or_and_mask, place_and, place_zero]; rfl)

theorem TableRow.andi (dr sr1 : Reg) (imm5 : BitVec 5) :
    TableRow.Statement (.andi dr sr1 imm5) :=
  tableRow_of_masked ⟨"ANDI", 0x5020#16, 0xF020#16⟩ (by decide) rfl
    (by simp [encode, encodeRRI5, or_and_mask, place_and, place_zero]; rfl)

theorem TableRow.ldr (dr baser : Reg) (off6 : BitVec 6) :
    TableRow.Statement (.ldr dr baser off6) :=
  tableRow_of_masked ⟨"LDR", 0x6000#16, 0xF000#16⟩ (by decide) rfl
    (by simp [encode, encodeRBO6, or_and_mask, place_and, place_zero]; rfl)

theorem TableRow.str (sr baser : Reg) (off6 : BitVec 6) :
    TableRow.Statement (.str sr baser off6) :=
  tableRow_of_masked ⟨"STR", 0x7000#16, 0xF000#16⟩ (by decide) rfl
    (by simp [encode, encodeRBO6, or_and_mask, place_and, place_zero]; rfl)

theorem TableRow.rti (unused : BitVec 12) :
    TableRow.Statement (.rti unused) :=
  tableRow_of_masked ⟨"RTI", 0x8000#16, 0xF000#16⟩ (by decide) rfl
    (by simp [encode, encodeNone, or_and_mask, place_and, place_zero]; rfl)

theorem TableRow.not (dr sr : Reg) (unused : BitVec 6) :
    TableRow.Statement (.not dr sr unused) :=
  tableRow_of_masked ⟨"NOT", 0x9000#16, 0xF000#16⟩ (by decide) rfl
    (by simp [encode, encodeRBO6, or_and_mask, place_and, place_zero]; rfl)

theorem TableRow.ldi (dr : Reg) (off9 : BitVec 9) :
    TableRow.Statement (.ldi dr off9) :=
  tableRow_of_masked ⟨"LDI", 0xA000#16, 0xF000#16⟩ (by decide) rfl
    (by simp [encode, encodeRO9, or_and_mask, place_and, place_zero]; rfl)

theorem TableRow.sti (sr : Reg) (off9 : BitVec 9) :
    TableRow.Statement (.sti sr off9) :=
  tableRow_of_masked ⟨"STI", 0xB000#16, 0xF000#16⟩ (by decide) rfl
    (by simp [encode, encodeRO9, or_and_mask, place_and, place_zero]; rfl)

theorem TableRow.jmp (unusedHi : BitVec 3) (baser : Reg) (unusedLo : BitVec 6) :
    TableRow.Statement (.jmp unusedHi baser unusedLo) :=
  tableRow_of_masked ⟨"JMP", 0xC000#16, 0xF000#16⟩ (by decide) rfl
    (by simp [encode, or_and_mask, place_and, place_zero]; rfl)

theorem TableRow.res (unused : BitVec 12) :
    TableRow.Statement (.res unused) :=
  tableRow_of_masked ⟨"RES", 0xD000#16, 0xF000#16⟩ (by decide) rfl
    (by simp [encode, encodeNone, or_and_mask, place_and, place_zero]; rfl)

theorem TableRow.lea (dr : Reg) (off9 : BitVec 9) :
    TableRow.Statement (.lea dr off9) :=
  tableRow_of_masked ⟨"LEA", 0xE000#16, 0xF000#16⟩ (by decide) rfl
    (by simp [encode, encodeRO9, or_and_mask, place_and, place_zero]; rfl)

theorem TableRow.trapGetc (unused : BitVec 4) :
    TableRow.Statement (.trapGetc unused) :=
  tableRow_of_masked ⟨"TRAP_GETC", 0xF020#16, 0xF0FF#16⟩ (by decide) rfl
    (by simp [encode, encodeTrap, or_and_mask, place_and, place_zero]; rfl)

theorem TableRow.trapOut (unused : BitVec 4) :
    TableRow.Statement (.trapOut unused) :=
  tableRow_of_masked ⟨"TRAP_OUT", 0xF021#16, 0xF0FF#16⟩ (by decide) rfl
    (by simp [encode, encodeTrap, or_and_mask, place_and, place_zero]; rfl)

theorem TableRow.trapPuts (unused : BitVec 4) :
    TableRow.Statement (.trapPuts unused) :=
  tableRow_of_masked ⟨"TRAP_PUTS", 0xF022#16, 0xF0FF#16⟩ (by decide) rfl
    (by simp [encode, encodeTrap, or_and_mask, place_and, place_zero]; rfl)

theorem TableRow.trapIn (unused : BitVec 4) :
    TableRow.Statement (.trapIn unused) :=
  tableRow_of_masked ⟨"TRAP_IN", 0xF023#16, 0xF0FF#16⟩ (by decide) rfl
    (by simp [encode, encodeTrap, or_and_mask, place_and, place_zero]; rfl)

theorem TableRow.trapPutsp (unused : BitVec 4) :
    TableRow.Statement (.trapPutsp unused) :=
  tableRow_of_masked ⟨"TRAP_PUTSP", 0xF024#16, 0xF0FF#16⟩ (by decide) rfl
    (by simp [encode, encodeTrap, or_and_mask, place_and, place_zero]; rfl)

theorem TableRow.trapHalt (unused : BitVec 4) :
    TableRow.Statement (.trapHalt unused) :=
  tableRow_of_masked ⟨"TRAP_HALT", 0xF025#16, 0xF0FF#16⟩ (by decide) rfl
    (by simp [encode, encodeTrap, or_and_mask, place_and, place_zero]; rfl)

theorem TableRow.trapUndef (unused : BitVec 4) (trapvect8 : BitVec 8) :
    TableRow.Statement (.trapUndef unused trapvect8) :=
  tableRow_of_masked ⟨"TRAP_UNDEF", 0xF000#16, 0xF000#16⟩ (by decide) rfl
    (by simp [encode, encodeTrap, or_and_mask, place_and, place_zero]; rfl)

end Sys2Proof.Laws
end

