-- ==== Sys2Proof/Laws/Step.lean ====
section
/-! SUPPORT. What a step and a run are, and what the four routines that read can do: the lemmas that later proofs cite instead
of unfolding `step`, `Host.Core.run` and the routines. -/

namespace Sys2Proof.Laws

open Sys2Proof Sys2Proof.Machine

variable (s : State)

/-! ### Step and run (R80, R86) -/

theorem step_of_run {s : State} (h : s.run = true) : step s = exec (decode s.fetch.1) s.fetch.2 := by
  simp [step, h]

theorem step_of_stopped {s : State} (h : s.run = false) : step s = .next s := by
  simp [step, h]

/-- A running core whose fetch does not poll runs the cell at `PC`. -/
theorem step_of_plain_fetch {s : State} (h : s.run = true) (hp : s.pollsAt s.pc = false) :
    step s = exec (decode (s.getCell s.pc)) (s.setPc (s.pc + 1#16)) := by
  simp [step_of_run h, fetch_eq, afterRead_plain s hp]

theorem run_of_next {M : Host.Core} {s t : M.State} (h : M.step s = .next t) (k : Nat) : M.run (k + 1) s = M.run k t := by
  rw [Host.Core.run]; simp [h]

theorem run_of_fault {M : Host.Core} {s : M.State} {r : M.Fault} (h : M.step s = .fault r) (k : Nat) :
    M.run (k + 1) s = .fault r := by
  rw [Host.Core.run]; simp [h]

theorem run_of_refused {M : Host.Core} {s : M.State} {r : M.Refusal} (h : M.step s = .refused r) (k : Nat) :
    M.run (k + 1) s = .refused r := by
  rw [Host.Core.run]; simp [h]

/-- Log entry 11: the address `withFetchWord` fetches from does not poll. -/
theorem withFetchWord_pc_plain : s.pollsAt (if s.pollsAt s.pc then Config.pcReset else s.pc) = false := by
  cases h : s.pollsAt s.pc
  · simpa using h
  · simp [State.pollsAt, Config.pcReset, Config.kbsrAddr]

/-- Log entry 11: after `withFetchWord` the very next step runs the word. -/
theorem step_withFetchWord (nbits w : Nat) :
    step (s.withFetchWord nbits w) = exec (decode (BitVec.ofNat 16 (w % 2 ^ nbits)))
      ((s.withFetchWord nbits w).setPc ((s.withFetchWord nbits w).pc + 1#16)) := by
  rw [step_of_plain_fetch (s := s.withFetchWord nbits w) rfl (withFetchWord_pc_plain s)]
  congr 2
  exact getCell_setCell_same s _ _

/-! ### The routines that read -/

/-- Everything GETC can do (R131, R177). -/
theorem execTrapGetc_cases :
    (s.input = [] ∧ execTrapGetc s = .fault (.blockedOnInput s.enterTrap)) ∨
    ∃ k rest, s.input = k :: rest ∧
      execTrapGetc s = .next (({ s.enterTrap with input := rest } : State).deliverChar k.char) := by
  rcases h : s.input with _ | ⟨k, rest⟩
  · exact .inl ⟨rfl, by simp [execTrapGetc, State.readChar, h]⟩
  · exact .inr ⟨k, rest, rfl, by simp [execTrapGetc, State.readChar, h]⟩

/-- Everything IN can do (R134, R177). -/
theorem execTrapIn_cases :
    (s.input = [] ∧ execTrapIn s = .fault (.blockedOnInput (s.enterTrap.consoleWriteAll s.inPrompt))) ∨
    ∃ k rest, s.input = k :: rest ∧
      execTrapIn s =
        .next ((({ s.enterTrap.consoleWriteAll s.inPrompt with input := rest } : State).consoleWrite k.char).deliverChar
          k.char) := by
  rcases h : s.input with _ | ⟨k, rest⟩
  · exact .inl ⟨rfl, by simp [execTrapIn, State.readChar, h]⟩
  · exact .inr ⟨k, rest, rfl, by simp [execTrapIn, State.readChar, h]⟩

/-- Everything PUTS can do (R133). -/
theorem execTrapPuts_cases (u : BitVec 4) :
    ∃ bs v, ReadsTo s.enterTrap v ∧ (execTrapPuts u s = .next (v.consoleWriteAll bs) ∨
      execTrapPuts u s = .next ((v.consoleWriteAll bs).raiseFault .stringOverrun (encode (.trapPuts u)))) := by
  obtain ⟨bs, v, h, h2⟩ := emitString_cases s.enterTrap putsBytes (encode (.trapPuts u))
    (cellsAbove (s.enterTrap.getReg 0)) (s.enterTrap.getReg 0)
  exact ⟨bs, v, h, h2.imp (fun e => by simp only [execTrapPuts, e]) (fun e => by simp only [execTrapPuts, e])⟩

/-- Everything PUTSP can do (R135). -/
theorem execTrapPutsp_cases (u : BitVec 4) :
    ∃ bs v, ReadsTo s.enterTrap v ∧ (execTrapPutsp u s = .next (v.consoleWriteAll bs) ∨
      execTrapPutsp u s = .next ((v.consoleWriteAll bs).raiseFault .stringOverrun (encode (.trapPutsp u)))) := by
  obtain ⟨bs, v, h, h2⟩ := emitString_cases s.enterTrap putspBytes (encode (.trapPutsp u))
    (cellsAbove (s.enterTrap.getReg 0)) (s.enterTrap.getReg 0)
  exact ⟨bs, v, h, h2.imp (fun e => by simp only [execTrapPutsp, e]) (fun e => by simp only [execTrapPutsp, e])⟩

/-- No instruction is refused. -/
theorem exec_ne_refused (i : Instr) (r : Refusal) : exec i s ≠ .refused r := by
  cases i with
  | br n z p off9 => simp only [exec, execBr]; split <;> simp
  | trapGetc u => rcases execTrapGetc_cases s with ⟨-, h⟩ | ⟨_, _, -, h⟩ <;> simp [exec, h]
  | trapIn u => rcases execTrapIn_cases s with ⟨-, h⟩ | ⟨_, _, -, h⟩ <;> simp [exec, h]
  | _ => intro h; cases h

end Sys2Proof.Laws
end

