-- ==== Sys2Proof/Tests/Slice0.lean ====
section
/-! SUPPORT. The model's own tests. Expected results are those of spec/95_test_vectors.md (V1 to V10) and of the encodings of
spec/30_encoding.md, written out; each theorem is about one word or one step. The witnesses at the end show, for every statement
with hypotheses, states and operands that meet them. -/

namespace Sys2Proof.Tests

open Sys2Proof Sys2Proof.Machine Sys2Proof.Safety Sys2Proof.Claims

/-! ### States -/

/-- The start state REGS_A of spec/95_test_vectors.md, with the decoder present, a halt notice and a prompt of one byte each,
and nothing typed. -/
def start : State where
  regs := #v[0x0001#16, 0x7FFF#16, 0x8000#16, 0xFFFF#16, 0x1234#16, 0x00FF#16, 0x0F0F#16, 0xBEEF#16]
  pc := 0x3000#16
  cond := .z
  run := true
  fault := none
  mem := []
  input := []
  console := []
  cfg := { kbdMmio := true, haltNotice := [0x48#8], inPrompt := [0x49#8] }

/-- The start state with the word `w` at `PC`. -/
def holding (w : Word) : State := start.setCell 0x3000#16 w

/-- The start state with the word `w` at `PC` and the characters `ks` to come. -/
def typed (w : Word) (ks : List Keystroke) : State := { holding w with input := ks }

/-- The start state with the flag `c` and the word `w` at `PC`. -/
def flagged (c : Cond) (w : Word) : State := { holding w with cond := c }

/-- The start state with the word `w` at `PC`, R0 at `a` and the string `cells` there. -/
def printing (w a : Word) (cells : List Word) : State :=
  State.loadWords a.toNat cells { holding w with regs := start.regs.set 0 a }

/-- The start state without the keyboard decoder. -/
def noDecoder : State := { start with cfg := { start.cfg with kbdMmio := false } }

/-- A core that has stopped. -/
def stopped : State := { start with run := false }

/-- The step answers a next state of which `f` holds. -/
def steps (s : State) (f : State → Bool) : Bool :=
  match step s with
  | .next t => f t
  | .fault _ => false
  | .refused _ => false

/-- The step is the blocked read, and `f` holds of the state in which the core waits. -/
def waits (s : State) (f : State → Bool) : Bool :=
  match step s with
  | .next _ => false
  | .fault (.blockedOnInput b) => f b
  | .refused _ => false

/-! ### Well-formedness -/

theorem test_wf_refuses_defined_vector_first : (Instr.trapUndef 0x0#4 0x20#8).wf = false := by decide
theorem test_wf_refuses_defined_vector_last : (Instr.trapUndef 0xF#4 0x25#8).wf = false := by decide
theorem test_wf_accepts_vector_below : (Instr.trapUndef 0x0#4 0x1F#8).wf = true := by decide
theorem test_wf_accepts_vector_above : (Instr.trapUndef 0x0#4 0x26#8).wf = true := by decide

/-! ### Decode and encode: words written out bit by bit from R62 and R71 -/

theorem test_decode_br :
    decode 0b0000101111111101#16 = .br true false true 0b111111101#9 ∧ encode (.br true false true 0b111111101#9) = 0b0000101111111101#16 := by decide
theorem test_decode_add :
    decode 0b0001010011001100#16 = .add 2 3 4 0b01#2 ∧ encode (.add 2 3 4 0b01#2) = 0b0001010011001100#16 := by decide
theorem test_decode_addi :
    decode 0b0001010011110000#16 = .addi 2 3 0b10000#5 ∧ encode (.addi 2 3 0b10000#5) = 0b0001010011110000#16 := by decide
theorem test_decode_ld :
    decode 0b0010001000001001#16 = .ld 1 0b000001001#9 ∧ encode (.ld 1 0b000001001#9) = 0b0010001000001001#16 := by decide
theorem test_decode_st :
    decode 0b0011111111111111#16 = .st 7 0b111111111#9 ∧ encode (.st 7 0b111111111#9) = 0b0011111111111111#16 := by decide
theorem test_decode_jsrr :
    decode 0b0100011101000001#16 = .jsrr 0b11#2 5 0b000001#6 ∧ encode (.jsrr 0b11#2 5 0b000001#6) = 0b0100011101000001#16 := by decide
theorem test_decode_jsr :
    decode 0b0100110000000000#16 = .jsr 0b10000000000#11 ∧ encode (.jsr 0b10000000000#11) = 0b0100110000000000#16 := by decide
theorem test_decode_and :
    decode 0b0101110001010111#16 = .and 6 1 7 0b10#2 ∧ encode (.and 6 1 7 0b10#2) = 0b0101110001010111#16 := by decide
theorem test_decode_andi :
    decode 0b0101000111101111#16 = .andi 0 7 0b01111#5 ∧ encode (.andi 0 7 0b01111#5) = 0b0101000111101111#16 := by decide
theorem test_decode_ldr :
    decode 0b0110100010100000#16 = .ldr 4 2 0b100000#6 ∧ encode (.ldr 4 2 0b100000#6) = 0b0110100010100000#16 := by decide
theorem test_decode_str :
    decode 0b0111100011111111#16 = .str 4 3 0b111111#6 ∧ encode (.str 4 3 0b111111#6) = 0b0111100011111111#16 := by decide
theorem test_decode_rti :
    decode 0b1000000000000001#16 = .rti 0b000000000001#12 ∧ encode (.rti 0b000000000001#12) = 0b1000000000000001#16 := by decide
theorem test_decode_not :
    decode 0b1001010101111110#16 = .not 2 5 0b111110#6 ∧ encode (.not 2 5 0b111110#6) = 0b1001010101111110#16 := by decide
theorem test_decode_ldi :
    decode 0b1010011100000000#16 = .ldi 3 0b100000000#9 ∧ encode (.ldi 3 0b100000000#9) = 0b1010011100000000#16 := by decide
theorem test_decode_sti :
    decode 0b1011110011111111#16 = .sti 6 0b011111111#9 ∧ encode (.sti 6 0b011111111#9) = 0b1011110011111111#16 := by decide
theorem test_decode_jmp :
    decode 0b1100101011100000#16 = .jmp 0b101#3 3 0b100000#6 ∧ encode (.jmp 0b101#3 3 0b100000#6) = 0b1100101011100000#16 := by decide
theorem test_decode_res :
    decode 0b1101111111111110#16 = .res 0b111111111110#12 ∧ encode (.res 0b111111111110#12) = 0b1101111111111110#16 := by decide
theorem test_decode_lea :
    decode 0b1110000000000010#16 = .lea 0 0b000000010#9 ∧ encode (.lea 0 0b000000010#9) = 0b1110000000000010#16 := by decide
theorem test_decode_trapGetc :
    decode 0b1111101000100000#16 = .trapGetc 0b1010#4 ∧ encode (.trapGetc 0b1010#4) = 0b1111101000100000#16 := by decide
theorem test_decode_trapOut :
    decode 0b1111000000100001#16 = .trapOut 0b0000#4 ∧ encode (.trapOut 0b0000#4) = 0b1111000000100001#16 := by decide
theorem test_decode_trapPuts :
    decode 0b1111000000100010#16 = .trapPuts 0b0000#4 ∧ encode (.trapPuts 0b0000#4) = 0b1111000000100010#16 := by decide
theorem test_decode_trapIn :
    decode 0b1111000100100011#16 = .trapIn 0b0001#4 ∧ encode (.trapIn 0b0001#4) = 0b1111000100100011#16 := by decide
theorem test_decode_trapPutsp :
    decode 0b1111100000100100#16 = .trapPutsp 0b1000#4 ∧ encode (.trapPutsp 0b1000#4) = 0b1111100000100100#16 := by decide
theorem test_decode_trapHalt :
    decode 0b1111111100100101#16 = .trapHalt 0b1111#4 ∧ encode (.trapHalt 0b1111#4) = 0b1111111100100101#16 := by decide
theorem test_decode_trapUndef :
    decode 0b1111010000100110#16 = .trapUndef 0b0100#4 0x26#8 ∧ encode (.trapUndef 0b0100#4 0x26#8) = 0b1111010000100110#16 := by decide
theorem test_table_word : decodeTableWord 16 0xF025 = some (.trapHalt 0x0#4) := by decide
theorem test_table_word_too_long : decodeTableWord 32 0xF025 = none := by decide

/-! ### Extension, flags, images -/

theorem test_sext5 : sext 0x10#5 = 0xFFF0#16 ∧ sext 0x0F#5 = 0x000F#16 := by decide
theorem test_sext6 : sext 0x20#6 = 0xFFE0#16 ∧ sext 0x1F#6 = 0x001F#16 := by decide
theorem test_sext9 : sext 0x100#9 = 0xFF00#16 ∧ sext 0x0FF#9 = 0x00FF#16 := by decide
theorem test_sext11 : sext 0x400#11 = 0xFC00#16 ∧ sext 0x3FF#11 = 0x03FF#16 := by decide
theorem test_condOf : condOf 0x0000#16 = .z ∧ condOf 0x7FFF#16 = .p ∧ condOf 0x8000#16 = .n := by decide

/-- R171: word 0 is the origin and a word is big-endian. -/
theorem test_image_bytes : imageOfBytes [0x30#8, 0x00#8, 0xF0#8, 0x25#8] = some ⟨0x3000#16, [0xF025#16]⟩ := by decide
theorem test_image_odd_bytes : imageOfBytes [0x30#8, 0x00#8, 0xF0#8] = none := by decide
/-- R56: the load stops at 0xFFFF and does not wrap. -/
theorem test_image_stops_at_top :
    (start.loadImage ⟨0xFFFF#16, [0x1111#16, 0x2222#16]⟩).mem = [(0xFFFF, 0x1111#16)] := by decide

/-! ### One step of each instruction -/

theorem test_add_wraps_to_zero :
    steps (holding 0x10C0#16)
      (fun t => t.getReg 0 = 0x0000#16 ∧ t.cond = .z ∧ t.pc = 0x3001#16) = true := by decide
theorem test_add_signed_overflow_and_unused_bits :
    steps (holding 0x1058#16)
      (fun t => t.getReg 0 = 0x8000#16 ∧ t.cond = .n ∧ t.getReg 1 = 0x7FFF#16) = true := by decide
theorem test_addi_most_negative :
    steps (holding 0x1070#16)
      (fun t => t.getReg 0 = 0x7FEF#16 ∧ t.cond = .p) = true := by decide
theorem test_addi_source_is_destination :
    steps (holding 0x1B7F#16)
      (fun t => t.getReg 5 = 0x00FE#16 ∧ t.cond = .p) = true := by decide
theorem test_and_zero : steps (holding 0x5042#16) (fun t => t.getReg 0 = 0x0000#16 ∧ t.cond = .z) = true := by decide
theorem test_and_all_ones : steps (holding 0x5103#16) (fun t => t.getReg 0 = 0x1234#16 ∧ t.cond = .p) = true := by decide
theorem test_andi_sign_extends :
    steps (holding 0x51F0#16)
      (fun t => t.getReg 0 = 0xBEE0#16 ∧ t.cond = .n) = true := by decide
theorem test_andi_low_mask : steps (holding 0x51EF#16) (fun t => t.getReg 0 = 0x000F#16 ∧ t.cond = .p) = true := by decide
theorem test_not_of_ones : steps (holding 0x90FF#16) (fun t => t.getReg 0 = 0x0000#16 ∧ t.cond = .z) = true := by decide
theorem test_not_of_max : steps (holding 0x907F#16) (fun t => t.getReg 0 = 0x8000#16 ∧ t.cond = .n) = true := by decide
theorem test_br_taken : steps (flagged .p 0x0205#16) (fun t => t.pc = 0x3006#16 ∧ t.cond = .p) = true := by decide
theorem test_br_not_taken : steps (flagged .n 0x0605#16) (fun t => t.pc = 0x3001#16 ∧ t.cond = .n) = true := by decide
theorem test_ld_negative_offset :
    steps ((holding 0x2100#16).setCell 0x2F01#16 0x7FFF#16)
      (fun t => t.getReg 0 = 0x7FFF#16 ∧ t.cond = .p) = true := by decide
theorem test_ld_wraps :
    steps ((({ start with pc := 0x0000#16 } : State).setCell 0x0000#16 0x21FE#16).setCell 0xFFFF#16 0x8001#16)
      (fun t => t.getReg 0 = 0x8001#16 ∧ t.cond = .n ∧ t.pc = 0x0001#16) = true := by decide
theorem test_st_next_cell :
    steps (holding 0x3E00#16)
      (fun t => t.getCell 0x3001#16 = 0xBEEF#16 ∧ t.cond = .z) = true := by decide
theorem test_st_own_cell :
    steps (holding 0x31FF#16)
      (fun t => t.getCell 0x3000#16 = 0x0001#16 ∧ t.pc = 0x3001#16) = true := by decide
theorem test_ldr_negative_offset :
    steps ((holding 0x6120#16).setCell 0x1214#16 0x8000#16)
      (fun t => t.getReg 0 = 0x8000#16 ∧ t.cond = .n) = true := by decide
theorem test_ldr_base_is_destination :
    steps ((holding 0x6000#16).setCell 0x0001#16 0x9999#16)
      (fun t => t.getReg 0 = 0x9999#16 ∧ t.cond = .n) = true := by decide
theorem test_str_offset :
    steps (holding 0x7303#16)
      (fun t => t.getCell 0x1237#16 = 0x7FFF#16 ∧ t.cond = .z) = true := by decide
theorem test_str_negative_offset : steps (holding 0x70FF#16) (fun t => t.getCell 0xFFFE#16 = 0x0001#16) = true := by decide
theorem test_ldi_through_pointer :
    steps (((holding 0xA001#16).setCell 0x3002#16 0x4000#16).setCell 0x4000#16 0xFFFF#16)
      (fun t => t.getReg 0 = 0xFFFF#16 ∧ t.cond = .n) = true := by decide
theorem test_ldi_polls_the_keyboard :
    steps ((typed 0xA001#16 [⟨0, 0x71#8⟩]).setCell 0x3002#16 0xFE00#16)
      (fun t => t.getReg 0 = 0x8000#16 ∧ t.cond = .n ∧ t.getCell 0xFE00#16 = 0x8000#16 ∧ t.getCell 0xFE02#16 = 0x0071#16 ∧ t.input = []) = true := by decide
theorem test_sti_through_pointer :
    steps ((holding 0xB201#16).setCell 0x3002#16 0x3002#16)
      (fun t => t.getCell 0x3002#16 = 0x7FFF#16 ∧ t.cond = .z) = true := by decide
theorem test_sti_to_status_cell_is_plain :
    steps ((typed 0xB201#16 [⟨0, 0x71#8⟩]).setCell 0x3002#16 0xFE00#16)
      (fun t => t.getCell 0xFE00#16 = 0x7FFF#16 ∧ t.getCell 0xFE02#16 = 0x0000#16 ∧ t.input = [⟨0, 0x71#8⟩]) = true := by decide
theorem test_lea_negative_offset :
    steps (holding 0xE1FF#16)
      (fun t => t.getReg 0 = 0x3000#16 ∧ t.cond = .p) = true := by decide
theorem test_lea_flags_of_the_address :
    steps (({ start with pc := 0x7F00#16 } : State).setCell 0x7F00#16 0xE0FF#16)
      (fun t => t.getReg 0 = 0x8000#16 ∧ t.cond = .n ∧ t.pc = 0x7F01#16) = true := by decide
theorem test_jmp_unused_bits : steps (holding 0xCF3F#16) (fun t => t.pc = 0x1234#16 ∧ t.cond = .z) = true := by decide
theorem test_ret : steps (holding 0xC1C0#16) (fun t => t.pc = 0xBEEF#16 ∧ t.getReg 7 = 0xBEEF#16) = true := by decide
theorem test_jsr_forward :
    steps (holding 0x4BFF#16)
      (fun t => t.getReg 7 = 0x3001#16 ∧ t.pc = 0x3400#16) = true := by decide
theorem test_jsr_backward :
    steps (holding 0x4C00#16)
      (fun t => t.getReg 7 = 0x3001#16 ∧ t.pc = 0x2C01#16) = true := by decide
theorem test_jsrr : steps (holding 0x473F#16) (fun t => t.getReg 7 = 0x3001#16 ∧ t.pc = 0x1234#16) = true := by decide
theorem test_jsrr_r7_falls_through :
    steps (holding 0x41C0#16)
      (fun t => t.getReg 7 = 0x3001#16 ∧ t.pc = 0x3001#16) = true := by decide
theorem test_getc :
    steps (typed 0xFA20#16 [⟨3, 0xFF#8⟩])
      (fun t => t.getReg 0 = 0x00FF#16 ∧ t.cond = .p ∧ t.getReg 7 = 0x3001#16 ∧ t.input = [] ∧ t.console = []) = true := by decide
theorem test_out :
    steps (holding 0xF021#16)
      (fun t => t.console = [0x01#8] ∧ t.getReg 7 = 0x3001#16 ∧ t.cond = .z) = true := by decide
theorem test_puts_low_bytes :
    steps (printing 0xF022#16 0x4000#16 [0x0141#16, 0x0100#16, 0x0042#16])
      (fun t => t.console = [0x41#8, 0x00#8, 0x42#8] ∧ t.getReg 0 = 0x4000#16 ∧ t.run) = true := by decide
theorem test_puts_overrun :
    steps (printing 0xF022#16 0xFFFE#16 [0x0041#16, 0x0042#16])
      (fun t => t.console = [0x41#8, 0x42#8] ∧ t.run = false ∧ t.fault = some ⟨.stringOverrun, 0xF022#16⟩) = true := by decide
theorem test_in :
    steps (typed 0xF023#16 [⟨0, 0x37#8⟩])
      (fun t => t.console = [0x49#8, 0x37#8] ∧ t.getReg 0 = 0x0037#16 ∧ t.cond = .p) = true := by decide
theorem test_putsp_low_then_high :
    steps (printing 0xF024#16 0x4000#16 [0x6948#16, 0x0021#16])
      (fun t => t.console = [0x48#8, 0x69#8, 0x21#8] ∧ t.run) = true := by decide
theorem test_putsp_overrun :
    steps (printing 0xF024#16 0xFFFF#16 [0x4241#16])
      (fun t => t.console = [0x41#8, 0x42#8] ∧ t.fault = some ⟨.stringOverrun, 0xF024#16⟩) = true := by decide
theorem test_halt :
    steps (holding 0xFF25#16)
      (fun t => t.console = [0x48#8] ∧ t.run = false ∧ t.fault = none ∧ t.getReg 7 = 0x3001#16) = true := by decide
theorem test_undefined_vector_below :
    steps (holding 0xF01F#16)
      (fun t => t.run = false ∧ t.fault = some ⟨.undefinedTrap, 0xF01F#16⟩ ∧ t.getReg 7 = 0x3001#16) = true := by decide
theorem test_undefined_vector_above :
    steps (holding 0xF026#16)
      (fun t => t.fault = some ⟨.undefinedTrap, 0xF026#16⟩ ∧ t.pc = 0x3001#16) = true := by decide
theorem test_rti :
    steps (holding 0x8FFF#16)
      (fun t => t.run = false ∧ t.fault = some ⟨.illegalOpcodeRti, 0x8FFF#16⟩ ∧ t.getReg 7 = 0xBEEF#16) = true := by decide
theorem test_res :
    steps (holding 0xD123#16)
      (fun t => t.run = false ∧ t.fault = some ⟨.illegalOpcodeRes, 0xD123#16⟩ ∧ t.getReg 7 = 0xBEEF#16) = true := by decide
theorem test_stopped_core_stays : steps stopped (fun t => t = stopped) = true := by decide
theorem test_fetch_polls :
    steps ((typed 0x0000#16 [⟨0, 0x71#8⟩]).setPc 0xFE00#16)
      (fun t => t.fault = some ⟨.illegalOpcodeRti, 0x8000#16⟩ ∧ t.getCell 0xFE02#16 = 0x0071#16) = true := by decide
theorem test_getc_waits : waits (holding 0xF020#16) (fun t => t.getReg 7 = 0x3001#16 ∧ t.run ∧ t.console = []) = true := by decide
theorem test_in_waits_after_the_prompt : waits (holding 0xF023#16) (fun t => t.getReg 7 = 0x3001#16 ∧ t.run ∧ t.console = [0x49#8]) = true := by decide

/-- The host's form of a fetch: the word runs as the first instruction after reset. -/
theorem test_withFetchWord : steps (State.reset.withFetchWord 16 0xD123)
    (fun t => t.fault = some ⟨.illegalOpcodeRes, 0xD123#16⟩ ∧ t.pc = 0x3001#16) = true := by decide

/-! ### Witnesses: states and operands that meet the hypotheses of each statement, clause by clause -/

theorem witness_DecodeInvertsEncode :
    (Instr.trapUndef 0xF#4 0x1F#8).wf = true ∧ (Instr.trapUndef 0x0#4 0x26#8).wf = true ∧
      (Instr.br true true true 0x1FF#9).wf = true := by decide

theorem witness_EveryWordDecodesToItsTableRow :
    ∃ r ∈ opcodeTable.dropLast, r.selects 0xF025#16 = true := by decide

theorem witness_SignExtensionIsTwosComplement :
    11 ∈ [5, 6, 9, 11] ∧ 2 ^ (11 - 1) ≤ (0x400#11).toNat ∧ ¬ 2 ^ (11 - 1) ≤ (0x3FF#11).toNat := by decide

theorem witness_SetCCFollowsTheSign :
    (1 ≤ (0x0001#16).toNat ∧ (0x0001#16).toNat ≤ 0x7FFF) ∧ (1 ≤ (0x7FFF#16).toNat ∧ (0x7FFF#16).toNat ≤ 0x7FFF) ∧
      0x8000 ≤ (0x8000#16).toNat ∧ 0x8000 ≤ (0xFFFF#16).toNat := by decide

theorem witness_MemReadPollsTheKeyboardCell_plain :
    ¬ Polls start 0xFDFF#16 ∧ ¬ Polls start 0xFE01#16 ∧ ¬ Polls start 0xFE02#16 ∧ ¬ Polls noDecoder 0xFE00#16 := by
  unfold Polls; decide

theorem witness_MemReadPollsTheKeyboardCell_key :
    Polls (typed 0x0000#16 [⟨0, 0x71#8⟩]) 0xFE00#16 ∧ (typed 0x0000#16 [⟨0, 0x71#8⟩]).input = ⟨0, 0x71#8⟩ :: [] := by
  unfold Polls; decide

theorem witness_MemReadPollsTheKeyboardCell_none :
    (Polls start 0xFE00#16 ∧ start.keyAvailable = false) ∧
      Polls (typed 0x0000#16 [⟨1, 0x71#8⟩]) 0xFE00#16 ∧ (typed 0x0000#16 [⟨1, 0x71#8⟩]).keyAvailable = false := by
  unfold Polls; decide

theorem witness_KeyAvailableIsStableUntilConsumed :
    (typed 0x0000#16 [⟨0, 0x71#8⟩]).keyAvailable = true ∧
      (typed 0x0000#16 [⟨1, 0x71#8⟩]).input = ⟨1, 0x71#8⟩ :: [] ∧ start.input = [] := by decide

theorem witness_KeyAvailableIsStableUntilConsumed_step :
    ∃ t, step (typed 0x10C0#16 [⟨0, 0x71#8⟩]) = .next t ∧ (typed 0x10C0#16 [⟨0, 0x71#8⟩]).keyAvailable = true ∧
      charsOf t = charsOf (typed 0x10C0#16 [⟨0, 0x71#8⟩]) := ⟨_, rfl, by decide, by decide⟩

theorem witness_OnlyTheStatusCellReadIsNotIdempotent :
    (0xFE02#16 ≠ 0xFE00#16) ∧
      (start.cfg.kbdMmio = true ∧
        (typed 0x0000#16 [⟨0, 0x71#8⟩, ⟨0, 0x72#8⟩]).input = ⟨0, 0x71#8⟩ :: ⟨0, 0x72#8⟩ :: []) ∧
      (typed 0x0000#16 [⟨0, 0x71#8⟩]).cfg.kbdMmio = true ∧ (typed 0x0000#16 [⟨0, 0x71#8⟩]).input = [⟨0, 0x71#8⟩] := by
  decide

theorem witness_CanonicalMemoriesWithEqualCellsAreEqual :
    ∃ m m' : Memory, m ≠ [] ∧ Memory.wf m ∧ Memory.wf m' ∧ ∀ a : Word, Memory.read m a.toNat = Memory.read m' a.toNat :=
  ⟨[(0, 0x0001#16), (0xFFFF, 0x8000#16)], [(0, 0x0001#16), (0xFFFF, 0x8000#16)], by decide, by decide, by decide,
    fun _ => rfl⟩

theorem witness_StepRunsTheDecodedInstruction :
    (holding 0x10C0#16).run = true ∧ ¬ Polls (holding 0x10C0#16) (holding 0x10C0#16).pc ∧
      (Instr.add 0 3 0 0#2).wf = true ∧ (holding 0x10C0#16).getCell (holding 0x10C0#16).pc = encode (.add 0 3 0 0#2) := by
  unfold Polls; decide

theorem witness_StoppedCoreKeepsAllState : stopped.run = false := by decide

/-- `ST R7, #0` and, over its own cell, `ST R0, #-1`. -/
theorem witness_StoredWordIsTheNextInstruction_st :
    ((holding 0x3E00#16).run = true ∧ ¬ Polls (holding 0x3E00#16) (holding 0x3E00#16).pc ∧
      decode ((holding 0x3E00#16).getCell (holding 0x3E00#16).pc) = .st 7 0#9 ∧ storedReg (.st 7 0#9) = some 7 ∧
      storeAddr (.st 7 0#9) ((holding 0x3E00#16).setPc ((holding 0x3E00#16).pc + 1#16)) = [(holding 0x3E00#16).pc + 1#16] ∧
      ¬ Polls (holding 0x3E00#16) ((holding 0x3E00#16).pc + 1#16)) ∧
    (holding 0x31FF#16).run = true ∧ ¬ Polls (holding 0x31FF#16) (holding 0x31FF#16).pc ∧
      decode ((holding 0x31FF#16).getCell (holding 0x31FF#16).pc) = .st 0 0x1FF#9 ∧ storedReg (.st 0 0x1FF#9) = some 0 ∧
      storeAddr (.st 0 0x1FF#9) ((holding 0x31FF#16).setPc ((holding 0x31FF#16).pc + 1#16)) = [(holding 0x31FF#16).pc] := by
  unfold Polls; decide

/-- `STI R1, #1` through a pointer to the following cell. -/
theorem witness_StoredWordIsTheNextInstruction_sti :
    decode (((holding 0xB201#16).setCell 0x3002#16 0x3001#16).getCell 0x3000#16) = .sti 1 1#9 ∧
      storedReg (.sti 1 1#9) = some 1 ∧
      storeAddr (.sti 1 1#9) (((holding 0xB201#16).setCell 0x3002#16 0x3001#16).setPc (0x3000#16 + 1#16)) =
        [0x3000#16 + 1#16] := by decide

theorem witness_AddRegisterFormWritesTheSum :
    0x1058#16 &&& 0xF020#16 = 0x1000#16 ∧ 0x1FDF#16 &&& 0xF020#16 = 0x1000#16 := by decide

theorem witness_AddImmediateFormWritesTheSum :
    0x1020#16 &&& 0xF020#16 = 0x1020#16 ∧ 0x1FFF#16 &&& 0xF020#16 = 0x1020#16 ∧ start.getReg 3 = sext 0x1F#5 := by decide

theorem witness_AndRegisterFormWritesTheConjunction :
    0x5000#16 &&& 0xF020#16 = 0x5000#16 ∧ 0x5FDF#16 &&& 0xF020#16 = 0x5000#16 := by decide

theorem witness_AndImmediateFormWritesTheConjunction :
    0x5020#16 &&& 0xF020#16 = 0x5020#16 ∧ 0x5FFF#16 &&& 0xF020#16 = 0x5020#16 ∧ start.getReg 3 = sext 0x1F#5 := by decide

theorem witness_NotWritesTheComplement :
    0x9000#16 &&& 0xF000#16 = 0x9000#16 ∧ 0x9FFF#16 &&& 0xF000#16 = 0x9000#16 := by decide

theorem witness_LdLoadsFromThePcRelativeCell :
    0x2FFF#16 &&& 0xF000#16 = 0x2000#16 ∧ ¬ Polls start (start.pc + sext 0x100#9) ∧
      ¬ Polls noDecoder (0xFE00#16 + sext 0x000#9) := by
  unfold Polls; decide

theorem witness_StStoresToThePcRelativeCell : 0x3FFF#16 &&& 0xF000#16 = 0x3000#16 := by decide

theorem witness_LdrLoadsFromBasePlusOffset :
    0x6FFF#16 &&& 0xF000#16 = 0x6000#16 ∧ ¬ Polls start (start.getReg 4 + sext 0x20#6) := by
  unfold Polls; decide

theorem witness_StrStoresToBasePlusOffset : 0x7FFF#16 &&& 0xF000#16 = 0x7000#16 := by decide

theorem witness_LdiLoadsThroughThePointerCell :
    0xAFFF#16 &&& 0xF000#16 = 0xA000#16 ∧
      ¬ Polls ((holding 0xA001#16).setCell 0x3001#16 0xFE02#16) (0x3000#16 + sext 0x001#9) ∧
      ¬ Polls ((holding 0xA001#16).setCell 0x3001#16 0xFE02#16)
        (((holding 0xA001#16).setCell 0x3001#16 0xFE02#16).getCell (0x3000#16 + sext 0x001#9)) := by
  unfold Polls; decide

theorem witness_StiStoresThroughThePointerCell :
    0xBFFF#16 &&& 0xF000#16 = 0xB000#16 ∧ ¬ Polls start (start.pc + sext 0x1FF#9) := by
  unfold Polls; decide

theorem witness_LeaWritesTheAddressAndReadsNoMemory : 0xEFFF#16 &&& 0xF000#16 = 0xE000#16 := by decide

theorem witness_BrIsTakenWhenANamedFlagIsSet :
    0x0FFF#16 &&& 0xF000#16 = 0x0000#16 ∧ (true = true ∧ (flagged .n 0x0800#16).cond = .n) ∧
      ¬ ((false = true ∧ start.cond = .n) ∨ (false = true ∧ start.cond = .z) ∨ (false = true ∧ start.cond = .p)) := by
  decide

theorem witness_JmpGoesToTheBaseRegister : 0xCFFF#16 &&& 0xF000#16 = 0xC000#16 := by decide

theorem witness_JsrLinksAndGoesPcRelative : 0x4FFF#16 &&& 0xF800#16 = 0x4800#16 := by decide

theorem witness_JsrrLinksThenReadsTheBase : 0x47FF#16 &&& 0xF800#16 = 0x4000#16 ∧ (6 : Reg) ≠ 7 := by decide

theorem witness_JmpThroughR7ReturnsAfterTheCall :
    ∃ t u : State, linksR7 (.jsr 0x400#11) = true ∧ exec (.jsr 0x400#11) start = .next t ∧ u.getReg 7 = t.getReg 7 :=
  ⟨_, (start.setReg 7 start.pc).setPc 0x1234#16, rfl, rfl, by decide⟩

theorem witness_GetcReadsOneCharacterIntoR0 :
    0xFF20#16 &&& 0xF0FF#16 = 0xF020#16 ∧ (typed 0xF020#16 [⟨1, 0xFF#8⟩]).input = ⟨1, 0xFF#8⟩ :: [] ∧
      start.input = [] := by decide

theorem witness_OutWritesTheLowByteOfR0 : 0xFF21#16 &&& 0xF0FF#16 = 0xF021#16 := by decide

/-- R0 at `r`, a nonzero cell at 0xFFFE and `v` at 0xFFFF. -/
def atTop (r v : Word) : State := (printing 0xF022#16 r []).loadImage ⟨0xFFFE#16, [0x0041#16, v]⟩

theorem witness_PutsWritesLowBytesUpToTheZeroCell_decode : 0xFF22#16 &&& 0xF0FF#16 = 0xF022#16 := by decide

theorem witness_PutsWritesLowBytesUpToTheZeroCell_zero :
    (((atTop 0xFFFE#16 0x0000#16).getReg 0).toNat + 1 ≤ 0xFFFF ∧
      (readRun (1 + 1) ((atTop 0xFFFE#16 0x0000#16).getReg 0) (atTop 0xFFFE#16 0x0000#16)).1 = [0x0041#16] ++ [0#16] ∧
      0#16 ∉ [0x0041#16]) ∧
    ∀ j ≤ 1, ¬ Polls (atTop 0xFFFE#16 0x0000#16) ((atTop 0xFFFE#16 0x0000#16).getReg 0 + BitVec.ofNat 16 j) := by
  unfold Polls; decide

theorem witness_PutsWritesLowBytesUpToTheZeroCell_empty :
    ((atTop 0xFFFF#16 0x0000#16).getReg 0).toNat + 0 ≤ 0xFFFF ∧
      (readRun (0 + 1) ((atTop 0xFFFF#16 0x0000#16).getReg 0) (atTop 0xFFFF#16 0x0000#16)).1 = [] ++ [0#16] ∧
      0#16 ∉ ([] : List Word) := by decide

theorem witness_PutsWritesLowBytesUpToTheZeroCell_overrun :
    (((atTop 0xFFFE#16 0x4200#16).getReg 0).toNat + 1 = 0xFFFF ∧
      0#16 ∉ (readRun (1 + 1) ((atTop 0xFFFE#16 0x4200#16).getReg 0) (atTop 0xFFFE#16 0x4200#16)).1) ∧
    ((atTop 0xFFFF#16 0x4200#16).getReg 0).toNat + 0 = 0xFFFF ∧
      0#16 ∉ (readRun (0 + 1) ((atTop 0xFFFF#16 0x4200#16).getReg 0) (atTop 0xFFFF#16 0x4200#16)).1 := by decide

theorem witness_InPromptsReadsAndEchoes :
    0xFF23#16 &&& 0xF0FF#16 = 0xF023#16 ∧ (typed 0xF023#16 [⟨0, 0x00#8⟩]).input = ⟨0, 0x00#8⟩ :: [] := by decide

/-- The other hypotheses are those of PUTS, with the same witnesses. -/
theorem witness_PutspWritesPackedBytesUpToTheZeroCell : 0xFF24#16 &&& 0xF0FF#16 = 0xF024#16 := by decide

theorem witness_HaltWritesTheNoticeAndStops : 0xFF25#16 &&& 0xF0FF#16 = 0xF025#16 := by decide

theorem witness_UndefinedTrapVectorFaults :
    (0xF01F#16 &&& 0xF000#16 = 0xF000#16 ∧ ((0xF01F#16).extractLsb' 0 8).toNat < 0x20) ∧
      0xFF26#16 &&& 0xF000#16 = 0xF000#16 ∧ 0x25 < ((0xFF26#16).extractLsb' 0 8).toNat := by decide

theorem witness_RtiFaults : 0x8000#16 &&& 0xF000#16 = 0x8000#16 ∧ 0x8FFF#16 &&& 0xF000#16 = 0x8000#16 := by decide

theorem witness_ResFaults : 0xD000#16 &&& 0xF000#16 = 0xD000#16 ∧ 0xDFFF#16 &&& 0xF000#16 = 0xD000#16 := by decide

theorem witness_GetcAndInWaitWithoutInput : start.input = [] := by decide

/-! The whole-machine statements: a running core without a fault, in canonical memory, whose step has a next state. -/

theorem witness_EveryStepKeepsTheInvariant : ∃ t, Safety.Inv (holding 0x3E00#16) ∧ step (holding 0x3E00#16) = .next t :=
  ⟨_, by unfold Safety.Inv; decide, rfl⟩

theorem witness_StepWritesOnlyTheNamedRegisters :
    ∃ t, (holding 0x10C0#16).run = true ∧ step (holding 0x10C0#16) = .next t := ⟨_, by decide, rfl⟩

theorem witness_MemoryChangesOnlyByStoresAndPolls :
    ∃ t, (noDecoder.setCell 0x3000#16 0x31FF#16).run = true ∧
      step (noDecoder.setCell 0x3000#16 0x31FF#16) = .next t ∧
      (noDecoder.setCell 0x3000#16 0x31FF#16).cfg.kbdMmio = false := ⟨_, by decide, rfl, by decide⟩

theorem witness_CondIsWrittenByFlagSettersAndReadByBr :
    (∃ t, (holding 0x10C0#16).run = true ∧ step (holding 0x10C0#16) = .next t) ∧
      ∀ n z p off9, Instr.lea 0 0#9 ≠ .br n z p off9 :=
  ⟨⟨_, by decide, rfl⟩, fun _ _ _ _ h => Instr.noConfusion h⟩

theorem witness_PcAdvancesByOneButAtTransfers :
    ∃ t, (holding 0xF025#16).run = true ∧ step (holding 0xF025#16) = .next t ∧
      transfersControl (decode (holding 0xF025#16).fetch.1) = false := ⟨_, by decide, rfl, by decide⟩

theorem witness_ConsoleOnlyGrowsByItsRoutines :
    ∃ t, (holding 0x10C0#16).run = true ∧ step (holding 0x10C0#16) = .next t ∧
      writesConsole (decode (holding 0x10C0#16).fetch.1) = false := ⟨_, by decide, rfl, by decide⟩

theorem witness_CharactersAreConsumedInOrder :
    ∃ t, ({ noDecoder.setCell 0x3000#16 0xF020#16 with input := [⟨1, 0x71#8⟩] } : State).run = true ∧
      step { noDecoder.setCell 0x3000#16 0xF020#16 with input := [⟨1, 0x71#8⟩] } = .next t ∧
      (noDecoder.setCell 0x3000#16 0xF020#16).cfg.kbdMmio = false := ⟨_, by decide, rfl, by decide⟩

theorem witness_CharactersAreConsumedInOrder_asks :
    ∃ t, (typed 0xF020#16 [⟨1, 0x71#8⟩]).run = true ∧ step (typed 0xF020#16 [⟨1, 0x71#8⟩]) = .next t ∧
      asksForChar (decode (typed 0xF020#16 [⟨1, 0x71#8⟩]).fetch.1) = true := ⟨_, by decide, rfl, by decide⟩

theorem witness_CharactersAreConsumedInOrder_quiet :
    ∃ t, (typed 0x2001#16 [⟨0, 0x71#8⟩]).run = true ∧ step (typed 0x2001#16 [⟨0, 0x71#8⟩]) = .next t ∧
      asksForChar (decode (typed 0x2001#16 [⟨0, 0x71#8⟩]).fetch.1) = false ∧
      ¬ Polls (typed 0x2001#16 [⟨0, 0x71#8⟩]) (typed 0x2001#16 [⟨0, 0x71#8⟩]).pc ∧
      ∀ a ∈ readAddrs (decode (typed 0x2001#16 [⟨0, 0x71#8⟩]).fetch.1) (typed 0x2001#16 [⟨0, 0x71#8⟩]).fetch.2,
        ¬ Polls (typed 0x2001#16 [⟨0, 0x71#8⟩]) a := by
  refine ⟨_, by decide, rfl, by decide, by unfold Polls; decide, ?_⟩
  rw [show decode (typed 0x2001#16 [⟨0, 0x71#8⟩]).fetch.1 = .ld 0 1#9 by decide]
  simp only [readAddrs, Polls, List.mem_cons, List.not_mem_nil, or_false, forall_eq]
  decide

theorem witness_RunStopsOnlyByHaltOrFault :
    (∃ t, (holding 0xF025#16).run = true ∧ (holding 0xF025#16).fault = none ∧ step (holding 0xF025#16) = .next t ∧
      decode (holding 0xF025#16).fetch.1 = .trapHalt 0#4) ∧
    ∃ t f, (holding 0xF026#16).run = true ∧ (holding 0xF026#16).fault = none ∧ step (holding 0xF026#16) = .next t ∧
      t.fault = some f :=
  ⟨⟨_, by decide, by decide, rfl, by decide⟩, ⟨_, _, by decide, by decide, rfl, rfl⟩⟩

/-- The causes of RTI and RES, and the overruns of PUTS and PUTSP. -/
theorem witness_RunStopsOnlyByHaltOrFault_causes :
    (∃ t f, (holding 0x8000#16).run = true ∧ (holding 0x8000#16).fault = none ∧ step (holding 0x8000#16) = .next t ∧
      t.fault = some f ∧ f.cause = .illegalOpcodeRti) ∧
    (∃ t f, (holding 0xDFFF#16).run = true ∧ (holding 0xDFFF#16).fault = none ∧ step (holding 0xDFFF#16) = .next t ∧
      t.fault = some f ∧ f.cause = .illegalOpcodeRes) ∧
    (∃ t f, (printing 0xF022#16 0xFFFF#16 [0x0041#16]).run = true ∧
      (printing 0xF022#16 0xFFFF#16 [0x0041#16]).fault = none ∧
      step (printing 0xF022#16 0xFFFF#16 [0x0041#16]) = .next t ∧ t.fault = some f ∧ f.cause = .stringOverrun) ∧
    ∃ t f, (printing 0xF024#16 0xFFFF#16 [0x4241#16]).run = true ∧
      (printing 0xF024#16 0xFFFF#16 [0x4241#16]).fault = none ∧
      step (printing 0xF024#16 0xFFFF#16 [0x4241#16]) = .next t ∧ t.fault = some f ∧ f.cause = .stringOverrun :=
  ⟨⟨_, _, by decide, by decide, rfl, rfl, rfl⟩, ⟨_, _, by decide, by decide, rfl, rfl, rfl⟩,
    ⟨_, _, by decide, by decide, rfl, rfl, rfl⟩, ⟨_, _, by decide, by decide, rfl, rfl, rfl⟩⟩

/-- The vectors on both sides of the six defined ones. -/
theorem witness_RunStopsOnlyByHaltOrFault_below :
    ∃ t f, (holding 0xF01F#16).run = true ∧ (holding 0xF01F#16).fault = none ∧ step (holding 0xF01F#16) = .next t ∧
      t.fault = some f ∧ f.cause = .undefinedTrap := ⟨_, _, by decide, by decide, rfl, rfl, rfl⟩

theorem witness_StepWithoutInputReadsIgnoresTheInput :
    (holding 0xA001#16).run = true ∧ ¬ Polls (holding 0xA001#16) (holding 0xA001#16).pc ∧
      asksForChar (decode ((holding 0xA001#16).getCell (holding 0xA001#16).pc)) = false ∧
      ∀ a ∈ readAddrs (decode ((holding 0xA001#16).getCell (holding 0xA001#16).pc))
        ((holding 0xA001#16).setPc ((holding 0xA001#16).pc + 1#16)), ¬ Polls (holding 0xA001#16) a := by
  rw [show decode ((holding 0xA001#16).getCell (holding 0xA001#16).pc) = .ldi 0 1#9 by decide]
  simp only [readAddrs, Polls, List.mem_cons, List.not_mem_nil, or_false, forall_eq_or_imp, forall_eq]
  decide

theorem witness_RunsKeepTheConsoleAndStayStopped :
    ∃ t, core.run 1 (holding 0xF025#16) = .next t ∧ t.run = false := ⟨_, rfl, rfl⟩

end Sys2Proof.Tests
end

section
/-! Proofs of the statements of spec/00_scope.md: sign extension (R7); what one instruction, one step and one run do to the input
source, the console and the parameters (R4, R12 to R14). The statements about streams all come from `StreamEffect`. -/

namespace Sys2Proof.Proofs

open Sys2Proof Sys2Proof.Machine Sys2Proof.Claims Sys2Proof.Laws

/-! ### Sign extension (R7) -/

/-- R7: the formula, for every field no wider than a word. -/
theorem toNat_sext {k : Nat} (hk : k ≤ 16) (f : BitVec k) :
    (sext f).toNat = if 2 ^ (k - 1) ≤ f.toNat then f.toNat + (0xFFFF - (2 ^ k - 1)) else f.toNat := by
  have hpos : 0 < 2 ^ k := Nat.two_pow_pos k
  have hfit : f.toNat < 2 ^ 16 := f.isLt.trans_le (Nat.pow_le_pow_right (by decide) hk)
  have hsum : 2 ^ 16 - 2 ^ k = 0xFFFF - (2 ^ k - 1) := by omega
  rw [sext, BitVec.toNat_signExtend, BitVec.toNat_setWidth, Nat.mod_eq_of_lt hfit, BitVec.msb_eq_decide, hsum]
  split <;> simp_all

/-- R7: sign extension keeps the two's-complement reading. -/
theorem toInt_sext {k : Nat} (hk : k ≤ 16) (f : BitVec k) :
    (sext f).toInt = if 2 ^ (k - 1) ≤ f.toNat then (f.toNat : Int) - 2 ^ k else f.toNat := by
  rw [sext, BitVec.toInt_signExtend_of_le hk, BitVec.toInt_eq_msb_cond, BitVec.msb_eq_decide]
  simp

/-- R7: sign extension keeps the field's own bits. -/
theorem extractLsb'_sext {k : Nat} (hk : k ≤ 16) (f : BitVec k) : (sext f).extractLsb' 0 k = f := by
  ext i hi
  have hi' : i < 16 := hi.trans_le hk
  simp [sext, BitVec.getElem_signExtend, hi, hi']

/-- Settles O6: the three facts hold at every width up to that of a word. -/
theorem signExtensionIsTwosComplement : Obligations.SignExtensionIsTwosComplement := by
  intro k hk f
  have hk16 : k ≤ 16 := by
    simp only [List.mem_cons, List.not_mem_nil, or_false] at hk
    omega
  exact ⟨toNat_sext hk16 f, toInt_sext hk16 f, by rw [extractLsb'_sext hk16]⟩

/-! ### Reads and the input source (R12, R44) -/

theorem not_polls_iff_pollsAt (s : State) (a : Word) : ¬ Polls s a ↔ s.pollsAt a = false := by
  rw [← Bool.not_eq_true, pollsAt_iff]
  rfl

theorem passQuietPoll_input_congr {s t : State} (hi : s.input = t.input) :
    s.passQuietPoll.input = t.passQuietPoll.input := by
  cases hs : s.input with
  | nil => simp [State.passQuietPoll, ← hi, hs]
  | cons k rest => simp [State.passQuietPoll, ← hi, hs]

/-- What a read leaves of the input source depends on the input source and the parameters only. -/
theorem afterRead_input_congr {s t : State} (hi : s.input = t.input) (hc : s.cfg = t.cfg) (a : Word) :
    (s.afterRead a).input = (t.afterRead a).input := by
  have hp : s.pollsAt a = t.pollsAt a := by rw [State.pollsAt, State.pollsAt, hc]
  rcases afterRead_cases s a with ⟨h, e⟩ | ⟨h, e⟩
  · rw [e, afterRead_plain t (hp ▸ h), hi]
  · rw [e, State.afterRead, if_pos (hp ▸ h)]
    rcases pollKeyboard_cases s with ⟨c, rest, hs, e⟩ | ⟨hk, e⟩
    · rw [e, pollKeyboard_ready t (hi ▸ hs)]
      rfl
    · have hk' : t.keyAvailable = false := by rwa [State.keyAvailable, ← hi]
      rw [e, pollKeyboard_quiet t hk', setCell_input, setCell_input, passQuietPoll_input_congr hi]

/-- Reads from a state with the same input source and parameters can leave the same input source. -/
theorem readsTo_input_congr {s t u : State} (h : ReadsTo s u) (hi : s.input = t.input) (hc : s.cfg = t.cfg) :
    ∃ v, ReadsTo t v ∧ v.input = u.input := by
  induction h generalizing t with
  | refl => exact ⟨t, .refl t, hi.symm⟩
  | step a _ ih =>
    obtain ⟨v, hv, e⟩ := ih (afterRead_input_congr hi hc a) (by simpa using hc)
    exact ⟨v, .step a hv, e⟩

/-! ### What an instruction does to the streams and the parameters -/

/-- What `i` can do between `s` and `t` to the streams and the parameters: the parameters stay; the console gets bytes at its
end, none unless `i` is one of its routines; GETC and IN take one character; any other instruction leaves the input source as
some reads do. -/
structure StreamEffect (i : Instr) (s t : State) : Prop where
  cfg : t.cfg = s.cfg
  console : s.console <+: t.console
  console_kept : writesConsole i = false → t.console = s.console
  input_asked : asksForChar i = true → ∃ k, s.input = k :: t.input
  input_read : asksForChar i = false → ∃ u, ReadsTo s u ∧ t.input = u.input

/-- An instruction that is no console routine and no GETC or IN, and that reads. -/
theorem StreamEffect.of_reads {i : Instr} {s t u : State} (hr : ReadsTo s u) (hi : t.input = u.input)
    (hc : t.console = s.console) (hcfg : t.cfg = s.cfg) (ha : asksForChar i = false) : StreamEffect i s t where
  cfg := hcfg
  console := hc ▸ List.prefix_refl _
  console_kept _ := hc
  input_asked h := by simp [ha] at h
  input_read _ := ⟨u, hr, hi⟩

/-- A routine that writes `bs` and reads no character with `ReadChar`. -/
theorem StreamEffect.of_written {i : Instr} {s t u : State} {bs : List Byte} (hr : ReadsTo s u) (hi : t.input = u.input)
    (hc : t.console = s.console ++ bs) (hcfg : t.cfg = s.cfg) (hw : writesConsole i = true)
    (ha : asksForChar i = false) : StreamEffect i s t where
  cfg := hcfg
  console := hc ▸ List.prefix_append _ _
  console_kept h := by simp [hw] at h
  input_asked h := by simp [ha] at h
  input_read _ := ⟨u, hr, hi⟩

/-- The string loop after the common part of TRAP (R133, R135). -/
theorem StreamEffect.of_string {i : Instr} {s t v : State} {bs : List Byte} (hr : ReadsTo s.enterTrap v)
    (hi : t.input = v.input) (hc : t.console = v.console ++ bs) (hcfg : t.cfg = v.cfg) (hw : writesConsole i = true)
    (ha : asksForChar i = false) : StreamEffect i s t := by
  obtain ⟨u, hu, e⟩ := readsTo_input_congr hr (t := s) rfl rfl
  have hconsole : v.console = s.console := by rw [hr.frame, enterTrap_console]
  have hcfg' : v.cfg = s.cfg := by rw [hr.frame, enterTrap_cfg]
  exact .of_written hu (hi.trans e.symm) (hconsole ▸ hc) (hcfg.trans hcfg') hw ha

/-- A branch sets `PC` either way (R120). -/
theorem exec_br (n z p : Bool) (off9 : BitVec 9) (s : State) :
    exec (.br n z p off9) s = .next (s.setPc (if branchTaken n z p s.cond then pcRelative s.pc off9 else s.pc)) := by
  simp only [exec, execBr]
  split <;> rfl

/-- Every instruction that completes has its effect on the streams and the parameters (R14, R39). -/
theorem exec_streamEffect {i : Instr} {s t : State} (h : exec i s = .next t) : StreamEffect i s t := by
  cases i with
  | br n z p off9 =>
    rw [exec_br] at h
    cases h
    exact .of_reads (.refl s) rfl rfl rfl rfl
  | ld dr off9 =>
    cases h
    exact .of_reads (.one s (pcRelative s.pc off9)) (by simp) (by simp) (by simp) rfl
  | ldr dr baser off6 =>
    cases h
    exact .of_reads (.one s (basePlusOffset (s.getReg baser) off6)) (by simp) (by simp) (by simp) rfl
  | sti sr off9 =>
    cases h
    exact .of_reads (.one s (pcRelative s.pc off9)) (by simp) (by simp) (by simp) rfl
  | ldi dr off9 =>
    cases h
    exact .of_reads (.step (pcRelative s.pc off9) (.one _ (s.memRead (pcRelative s.pc off9)).1)) (by simp) (by simp)
      (by simp) rfl
  | trapGetc unused =>
    rcases execTrapGetc_cases s with ⟨-, e⟩ | ⟨k, rest, hi, e⟩ <;> cases e.symm.trans h
    exact ⟨by simp, by simp, by simp, fun _ => ⟨k, by simp [hi]⟩, by simp [asksForChar]⟩
  | trapIn unused =>
    rcases execTrapIn_cases s with ⟨-, e⟩ | ⟨k, rest, hi, e⟩ <;> cases e.symm.trans h
    exact ⟨by simp, by simp, by simp [writesConsole], fun _ => ⟨k, by simp [hi]⟩, by simp [asksForChar]⟩
  | trapPuts unused =>
    obtain ⟨bs, v, hr, e | e⟩ := execTrapPuts_cases s unused <;> cases e.symm.trans h <;>
      exact .of_string hr rfl rfl rfl rfl rfl
  | trapPutsp unused =>
    obtain ⟨bs, v, hr, e | e⟩ := execTrapPutsp_cases s unused <;> cases e.symm.trans h <;>
      exact .of_string hr rfl rfl rfl rfl rfl
  | trapOut unused =>
    cases h
    exact .of_written (.refl s) rfl rfl rfl rfl rfl
  | trapHalt unused =>
    cases h
    exact .of_written (.refl s) rfl rfl rfl rfl rfl
  | _ =>
    cases h
    exact .of_reads (.refl s) (by simp) (by simp) (by simp) rfl

/-! ### The fetch (R81) -/

/-- A fetch that polls returns a status word (R44, D6, D7). -/
theorem fetch_fst_of_pollsAt {s : State} (h : s.pollsAt s.pc = true) : s.fetch.1 = 0x8000#16 ∨ s.fetch.1 = 0x0000#16 := by
  have hpc : s.pc = Config.kbsrAddr := ((pollsAt_iff s s.pc).1 h).2
  have e : s.fetch.1 = s.pollKeyboard.getCell Config.kbsrAddr := by
    rw [hpc] at h
    simp [fetch_eq, State.afterRead, h, hpc]
  rcases pollKeyboard_cases s with ⟨c, rest, -, hp⟩ | ⟨-, hp⟩
  · left
    rw [e, hp, getCell_setCell_ne _ _ (by decide), getCell_setCell_same]
  · right
    rw [e, hp, getCell_setCell_same]

/-- GETC and IN are fetched without a poll. -/
theorem fetch_plain_of_asksForChar {s : State} (h : asksForChar (decode s.fetch.1) = true) : s.pollsAt s.pc = false := by
  by_contra hp
  rcases fetch_fst_of_pollsAt (Bool.eq_true_of_not_eq_false hp) with e | e <;> rw [e] at h <;>
    exact absurd h (by decide)

theorem fetch_snd_input (s : State) : s.fetch.2.input = (s.afterRead s.pc).input := rfl

@[simp] theorem fetch_snd_console (s : State) : s.fetch.2.console = s.console := afterRead_console s s.pc

@[simp] theorem fetch_snd_cfg (s : State) : s.fetch.2.cfg = s.cfg := afterRead_cfg s s.pc

/-- A whole step of a running core, its fetch included, has the effect of its instruction on the streams. -/
theorem step_streamEffect {s t : State} (hrun : s.run = true) (h : step s = .next t) :
    StreamEffect (decode s.fetch.1) s t := by
  rw [step_of_run hrun] at h
  have he := exec_streamEffect h
  exact {
    cfg := by simpa using he.cfg
    console := by simpa using he.console
    console_kept := by simpa using he.console_kept
    input_asked := fun ha => by
      have hplain : s.fetch.2.input = s.input := by
        rw [fetch_snd_input, afterRead_plain s (fetch_plain_of_asksForChar ha)]
      exact hplain ▸ he.input_asked ha
    input_read := fun ha => by
      obtain ⟨u, hu, e⟩ := he.input_read ha
      obtain ⟨v, hv, e'⟩ := readsTo_input_congr hu (t := s.afterRead s.pc) rfl rfl
      exact ⟨v, .step s.pc hv, e.trans e'.symm⟩ }

/-- Settles O53: the console part of the effect of a step on the streams. -/
theorem consoleOnlyGrowsByItsRoutines : Obligations.ConsoleOnlyGrowsByItsRoutines := by
  intro s t hrun h
  have he := step_streamEffect hrun h
  exact ⟨he.console, he.console_kept⟩

/-! ### Characters are consumed in order (R13) -/

/-- A step consumes characters from the front only. -/
theorem StreamEffect.chars_suffix {i : Instr} {s t : State} (he : StreamEffect i s t) : charsOf t <:+ charsOf s := by
  cases ha : asksForChar i with
  | true =>
    obtain ⟨k, hk⟩ := he.input_asked ha
    exact ⟨[k.char], by simp [charsOf, hk]⟩
  | false =>
    obtain ⟨u, hu, e⟩ := he.input_read ha
    simpa [charsOf, e] using hu.chars

theorem StreamEffect.input_tail {i : Instr} {s t : State} (he : StreamEffect i s t) (ha : asksForChar i = true) :
    t.input = s.input.tail := by
  obtain ⟨k, hk⟩ := he.input_asked ha
  rw [hk, List.tail_cons]

/-- R48: with the decoder absent only GETC and IN touch the input source. -/
theorem StreamEffect.input_of_no_decoder {i : Instr} {s t : State} (he : StreamEffect i s t)
    (hk : s.cfg.kbdMmio = false) : t.input = if asksForChar i then s.input.tail else s.input := by
  split
  · next ha => exact he.input_tail ha
  · next ha =>
    obtain ⟨u, hu, e⟩ := he.input_read (Bool.eq_false_of_not_eq_true ha)
    rw [e, hu.eq_of_no_decoder hk]

/-- The addresses of a scan depend on the cells only. -/
theorem scanAddrs_congr {s t : State} (h : ∀ c, t.getCell c = s.getCell c) (k : Nat) (a : Word) :
    scanAddrs k a t = scanAddrs k a s := by
  induction k generalizing a with
  | zero => rfl
  | succ k ih => simp only [scanAddrs, h, ih]

/-- A string loop none of whose reads polls leaves the input source as it is (R49). -/
theorem emitString_input_of_quiet (f : Word → List Byte) (w : Word) (k : Nat) (a : Word) (s : State)
    (hq : ∀ b ∈ scanAddrs k a s, s.pollsAt b = false) : (State.emitString f w k a s).input = s.input := by
  induction k generalizing a s with
  | zero =>
    have ha : s.afterRead a = s := afterRead_plain s (hq a (by simp [scanAddrs]))
    unfold State.emitString
    split <;> simp [ha]
  | succ k ih =>
    have ha : s.afterRead a = s := afterRead_plain s (hq a (by unfold scanAddrs; split <;> simp))
    unfold State.emitString
    simp only [memRead_fst, memRead_snd, ha]
    split
    · rfl
    · next hz =>
      refine ih (a + 1#16) (s.consoleWriteAll (f (s.getCell a))) fun b hb => hq b ?_
      rw [scanAddrs_congr (t := s.consoleWriteAll _) (s := s) (fun _ => rfl)] at hb
      simp [scanAddrs, hz, hb]

/-- The scan of PUTS and PUTSP starts at R0, which the common part of TRAP does not write. -/
theorem emitString_enterTrap_input_of_quiet (f : Word → List Byte) (w : Word) (s : State)
    (hq : ∀ b ∈ scanAddrs (0xFFFF - (s.getReg 0).toNat) (s.getReg 0) s, s.pollsAt b = false) :
    (s.enterTrap.emitString f w (cellsAbove (s.enterTrap.getReg 0)) (s.enterTrap.getReg 0)).input = s.input := by
  rw [enterTrap_getReg_ne s (by decide)]
  refine emitString_input_of_quiet f w _ _ s.enterTrap fun b hb => hq b ?_
  rwa [scanAddrs_congr (t := s.enterTrap) (s := s) (fun _ => rfl)] at hb

/-- R49, R57: an instruction that is no GETC or IN and none of whose reads polls leaves the input source as it is. -/
theorem exec_input_of_quiet {i : Instr} {s t : State} (ha : asksForChar i = false)
    (hq : ∀ a ∈ readAddrs i s, s.pollsAt a = false) (h : exec i s = .next t) : t.input = s.input := by
  cases i with
  | br n z p off9 =>
    rw [exec_br] at h
    cases h
    rfl
  | trapGetc unused => simp [asksForChar] at ha
  | trapIn unused => simp [asksForChar] at ha
  | ld dr off9 =>
    have hp := afterRead_plain s (hq (pcRelative s.pc off9) (by simp [readAddrs, pcRelative]))
    cases h
    simp [hp]
  | ldr dr baser off6 =>
    have hp := afterRead_plain s (hq (basePlusOffset (s.getReg baser) off6) (by simp [readAddrs, basePlusOffset]))
    cases h
    simp [hp]
  | sti sr off9 =>
    have hp := afterRead_plain s (hq (pcRelative s.pc off9) (by simp [readAddrs, pcRelative]))
    cases h
    simp [hp]
  | ldi dr off9 =>
    have hp := afterRead_plain s (hq (pcRelative s.pc off9) (by simp [readAddrs, pcRelative]))
    have hv := afterRead_plain s (hq (s.getCell (pcRelative s.pc off9)) (by simp [readAddrs, pcRelative]))
    cases h
    simp [hp, hv]
  | trapPuts unused =>
    cases h
    exact emitString_enterTrap_input_of_quiet _ _ s hq
  | trapPutsp unused =>
    cases h
    exact emitString_enterTrap_input_of_quiet _ _ s hq
  | _ =>
    cases h
    simp

/-- The same of a whole step whose fetch does not poll either. -/
theorem step_input_of_quiet {s t : State} (hrun : s.run = true) (h : step s = .next t)
    (ha : asksForChar (decode s.fetch.1) = false) (hf : ¬ Polls s s.pc)
    (hq : ∀ a ∈ readAddrs (decode s.fetch.1) s.fetch.2, ¬ Polls s a) : t.input = s.input := by
  rw [step_of_run hrun] at h
  have hplain : s.fetch.2.input = s.input := by
    rw [fetch_snd_input, afterRead_plain s ((not_polls_iff_pollsAt s _).1 hf)]
  have hq' : ∀ a ∈ readAddrs (decode s.fetch.1) s.fetch.2, s.fetch.2.pollsAt a = false := fun a hm => by
    rw [State.pollsAt, fetch_snd_cfg]
    exact (not_polls_iff_pollsAt s a).1 (hq a hm)
  exact (exec_input_of_quiet ha hq' h).trans hplain

/-- Settles O54: the input part of the effect of a step, and the frame of a step that does not poll. -/
theorem charactersAreConsumedInOrder : Obligations.CharactersAreConsumedInOrder := by
  intro s t hrun h
  have he := step_streamEffect hrun h
  exact ⟨he.chars_suffix, he.input_tail, step_input_of_quiet hrun h, he.input_of_no_decoder⟩

/-! ### A pending key stays (R12) -/

/-- R12: while a key is pending, an instruction that consumes no character leaves the input source as it is. -/
theorem StreamEffect.input_of_keyAvailable {i : Instr} {s t : State} (he : StreamEffect i s t)
    (hk : s.keyAvailable = true) (hc : charsOf t = charsOf s) : t.input = s.input := by
  have hlen : t.input.length = s.input.length := by simpa [charsOf] using congrArg List.length hc
  cases ha : asksForChar i with
  | true =>
    obtain ⟨k, e⟩ := he.input_asked ha
    simp [e] at hlen
  | false =>
    obtain ⟨u, hu, e⟩ := he.input_read ha
    rcases hu.input_of_keyAvailable hk with e' | hlt
    · exact e.trans e'
    · rw [e] at hlen
      omega

/-- R12: a pending key is still pending after a step that consumes no character. -/
theorem step_keeps_keyAvailable {s t : State} (h : step s = .next t) (hk : s.keyAvailable = true)
    (hc : charsOf t = charsOf s) : t.keyAvailable = true := by
  cases hrun : s.run with
  | false =>
    cases (step_of_stopped hrun).symm.trans h
    exact hk
  | true =>
    have hi : t.input = s.input := (step_streamEffect hrun h).input_of_keyAvailable hk hc
    rwa [State.keyAvailable, hi]

/-- Settles O11: the three facts about one poll, and the stability over a step. -/
theorem keyAvailableIsStableUntilConsumed : Obligations.KeyAvailableIsStableUntilConsumed := by
  refine fun s => ⟨fun hk => ?_, fun q c rest hi => ?_, fun hi => ?_, fun t h hk hc => step_keeps_keyAvailable h hk hc⟩
  · obtain ⟨c, rest, hi, hr⟩ := readChar_of_keyAvailable s hk
    exact ⟨c, _, hr, by simp [charsOf, hi], rfl⟩
  · simp [State.keyAvailable, State.passQuietPoll, hi]
  · simp [State.keyAvailable, State.passQuietPoll, hi]

/-! ### Runs (R86) -/

section Runs

variable {M : Host.Core}

/-- The first step of a run that answers a state. -/
theorem run_succ_eq_next {s t : M.State} {k : Nat} (h : M.run (k + 1) s = .next t) :
    ∃ u, M.step s = .next u ∧ M.run k u = .next t := by
  cases hs : M.step s with
  | next u => exact ⟨u, rfl, (run_of_next hs k).symm.trans h⟩
  | fault r => cases (run_of_fault hs k).symm.trans h
  | refused r => cases (run_of_refused hs k).symm.trans h

/-- What holds of a state and itself, of one step, and of two stretches when it holds of each, holds of every run. -/
theorem run_rel {R : M.State → M.State → Prop} (hrefl : ∀ s, R s s) (htrans : ∀ s u t, R s u → R u t → R s t)
    (hstep : ∀ s t, M.step s = .next t → R s t) {k : Nat} {s t : M.State} (h : M.run k s = .next t) : R s t := by
  induction k generalizing s with
  | zero =>
    cases h
    exact hrefl _
  | succ k ih =>
    obtain ⟨u, hs, hu⟩ := run_succ_eq_next h
    exact htrans s u t (hstep s u hs) (ih hu)

/-- A longer run goes on from where the shorter one ended. -/
theorem run_add_of_next {k : Nat} {s t : M.State} (h : M.run k s = .next t) (j : Nat) : M.run (k + j) s = M.run j t := by
  induction k generalizing s with
  | zero =>
    cases h
    rw [Nat.zero_add]
  | succ k ih =>
    obtain ⟨u, hs, hu⟩ := run_succ_eq_next h
    rw [Nat.add_right_comm, run_of_next hs, ih hu]

end Runs

/-- R86: a stopped core stays as it is, however long it is run. -/
theorem run_of_stopped {s : State} (h : s.run = false) (k : Nat) : core.run k s = .next s := by
  induction k with
  | zero => rfl
  | succ k ih => exact (run_of_next (M := core) (step_of_stopped h) k).trans ih

/-- `t` has the parameters of `s`, and a console that begins with that of `s`. -/
structure ExtendsConsole (s t : State) : Prop where
  console : s.console <+: t.console
  cfg : t.cfg = s.cfg

theorem ExtendsConsole.refl (s : State) : ExtendsConsole s s := ⟨List.prefix_refl _, rfl⟩

theorem ExtendsConsole.trans {s u t : State} (h : ExtendsConsole s u) (k : ExtendsConsole u t) : ExtendsConsole s t :=
  ⟨h.console.trans k.console, k.cfg.trans h.cfg⟩

/-- R14: every step extends the console, that of a stopped core too. -/
theorem step_extendsConsole {s t : State} (h : step s = .next t) : ExtendsConsole s t := by
  cases hrun : s.run with
  | false =>
    cases (step_of_stopped hrun).symm.trans h
    exact .refl s
  | true =>
    have he := step_streamEffect hrun h
    exact ⟨he.console, he.cfg⟩

theorem run_extendsConsole {k : Nat} {s t : State} (h : core.run k s = .next t) : ExtendsConsole s t :=
  run_rel (M := core) ExtendsConsole.refl (fun _ _ _ => ExtendsConsole.trans) (fun _ _ => step_extendsConsole) h

/-- Settles O57: the step facts carried over the run, and the end of a run that has stopped. -/
theorem runsKeepTheConsoleAndStayStopped : Obligations.RunsKeepTheConsoleAndStayStopped := by
  intro k j s t h
  have he := run_extendsConsole h
  exact ⟨he.console, he.cfg, fun hstop => (run_add_of_next h j).trans (run_of_stopped hstop j)⟩

end Sys2Proof.Proofs
end

section
/-! Proofs of the statements of spec/10_state.md: what one instruction and one step do to the general registers, `PC`, `COND`,
`RUN` and `FAULT`, and what holds at reset. The statements about a step all come from `CoreEffect`, the five ways in which an
instruction can complete; the word that a fault records comes from `encode_decode`. -/

namespace Sys2Proof.Proofs

open Sys2Proof Sys2Proof.Machine Sys2Proof.Claims Sys2Proof.Laws

/-! ### The encoder gives every word back (R62, R70) -/

/-- Two neighbouring fields of a word, placed where they were, are one field of it. -/
theorem place_or_place (w : Word) {a n b m : Nat} (h : a + n = b) :
    place (w.extractLsb' b m) b ||| place (w.extractLsb' a n) a = place (w.extractLsb' a (n + m)) a := by
  subst h
  ext i hi
  simp only [place, BitVec.getElem_or, BitVec.getElem_shiftLeft, BitVec.getElem_setWidth, BitVec.getLsbD_extractLsb']
  by_cases h1 : i < a
  · have h2 : i < a + n := by omega
    simp [h1, h2]
  · by_cases h2 : i < a + n
    · have h3 : i - a < n := by omega
      have h4 : i - a < n + m := by omega
      simp [h1, h2, h3, h4]
    · have h3 : ¬ i - a < n := by omega
      have h4 : a + n + (i - (a + n)) = a + (i - a) := by omega
      have h5 : i - (a + n) < m ↔ i - a < n + m := by omega
      simp [h1, h2, h3, h4, h5]

/-- The field of all bits of a word is the word. -/
theorem place_extract_whole (w : Word) {k : Nat} (h : 16 ≤ k) : place (w.extractLsb' 0 k) 0 = w := by
  ext i hi
  have hk : i < k := by omega
  simp [place, hk, BitVec.getLsbD_eq_getElem hi]

theorem ofBool_getElem (w : Word) {i : Nat} (h : i < 16) : BitVec.ofBool w[i] = w.extractLsb' i 1 := by
  ext j hj
  have : j = 0 := by omega
  subst this
  simp [BitVec.getLsbD_eq_getElem h]

theorem ofBool_getElem_eq {w : Word} {i : Nat} {b : Bool} (hi : i < 16) (h : w[i] = b) :
    BitVec.ofBool b = w.extractLsb' i 1 := h ▸ ofBool_getElem w hi

theorem encodeRRR_fields {w : Word} {op : BitVec 4} (h : opcodeOf w = op) (hb : w[5] = false) :
    encodeRRR op (regAt w 9) (regAt w 6) (regAt w 0) (w.extractLsb' 3 2) = w := by
  have hf : 0#1 = w.extractLsb' 5 1 := ofBool_getElem_eq (by decide) hb
  subst h
  simp only [encodeRRR, opcodeOf, bits_regAt, hf, place_or_place, place_extract_whole, Nat.reduceAdd, Nat.reduceLeDiff]

theorem encodeRRI5_fields {w : Word} {op : BitVec 4} (h : opcodeOf w = op) (hb : w[5] = true) :
    encodeRRI5 op (regAt w 9) (regAt w 6) (w.extractLsb' 0 5) = w := by
  have hf : 1#1 = w.extractLsb' 5 1 := ofBool_getElem_eq (by decide) hb
  subst h
  simp only [encodeRRI5, opcodeOf, bits_regAt, hf, place_or_place, place_extract_whole, Nat.reduceAdd, Nat.reduceLeDiff]

theorem encodeRO9_fields {w : Word} {op : BitVec 4} (h : opcodeOf w = op) :
    encodeRO9 op (regAt w 9) (w.extractLsb' 0 9) = w := by
  subst h
  simp only [encodeRO9, opcodeOf, bits_regAt, place_or_place, place_extract_whole, Nat.reduceAdd, Nat.reduceLeDiff]

theorem encodeRBO6_fields {w : Word} {op : BitVec 4} (h : opcodeOf w = op) :
    encodeRBO6 op (regAt w 9) (regAt w 6) (w.extractLsb' 0 6) = w := by
  subst h
  simp only [encodeRBO6, opcodeOf, bits_regAt, place_or_place, place_extract_whole, Nat.reduceAdd, Nat.reduceLeDiff]

theorem encodeNone_fields {w : Word} {op : BitVec 4} (h : opcodeOf w = op) :
    encodeNone op (w.extractLsb' 0 12) = w := by
  subst h
  simp only [encodeNone, opcodeOf, place_or_place, place_extract_whole, Nat.reduceAdd, Nat.reduceLeDiff]

theorem encodeTrap_fields {w : Word} {v : BitVec 8} (h : opcodeOf w = 0xF#4) (hv : w.extractLsb' 0 8 = v) :
    encodeTrap (w.extractLsb' 8 4) v = w := by
  subst hv
  simp only [encodeTrap, ← h, opcodeOf, place_or_place, place_extract_whole, Nat.reduceAdd, Nat.reduceLeDiff]

theorem encode_br_fields {w : Word} (h : opcodeOf w = 0x0#4) :
    encode (.br w[11] w[10] w[9] (w.extractLsb' 0 9)) = w := by
  simp only [encode, ← h, opcodeOf, ofBool_getElem, place_or_place, place_extract_whole, Nat.reduceAdd,
    Nat.reduceLeDiff]

theorem encode_jsr_fields {w : Word} (h : opcodeOf w = 0x4#4) (hb : w[11] = true) :
    encode (.jsr (w.extractLsb' 0 11)) = w := by
  have hf : 1#1 = w.extractLsb' 11 1 := ofBool_getElem_eq (by decide) hb
  simp only [encode, ← h, opcodeOf, hf, place_or_place, place_extract_whole, Nat.reduceAdd, Nat.reduceLeDiff]

theorem encode_jsrr_fields {w : Word} (h : opcodeOf w = 0x4#4) (hb : w[11] = false) :
    encode (.jsrr (w.extractLsb' 9 2) (regAt w 6) (w.extractLsb' 0 6)) = w := by
  have hf : 0#1 = w.extractLsb' 11 1 := ofBool_getElem_eq (by decide) hb
  simp only [encode, ← h, opcodeOf, bits_regAt, hf, place_or_place, place_extract_whole, Nat.reduceAdd,
    Nat.reduceLeDiff]

theorem encode_jmp_fields {w : Word} (h : opcodeOf w = 0xC#4) :
    encode (.jmp (w.extractLsb' 9 3) (regAt w 6) (w.extractLsb' 0 6)) = w := by
  simp only [encode, ← h, opcodeOf, bits_regAt, place_or_place, place_extract_whole, Nat.reduceAdd, Nat.reduceLeDiff]

theorem encode_decodeTrap {w : Word} (h : opcodeOf w = 0xF#4) : encode (decodeTrap w) = w := by
  unfold decodeTrap
  split
  case h_7 => exact encodeTrap_fields h rfl
  all_goals exact encodeTrap_fields h ‹_›

/-- R70: no bit of a word is lost by decoding it. -/
theorem encode_decode (w : Word) : encode (decode w) = w := by
  by_cases hF : opcodeOf w = 0xF#4
  · rw [decode_of_opcodeF hF, encode_decodeTrap hF]
  unfold decode
  split
  · exact encode_br_fields ‹_›
  · split
    · exact encodeRRI5_fields ‹_› ‹_›
    · exact encodeRRR_fields ‹_› (Bool.eq_false_of_not_eq_true ‹_›)
  · exact encodeRO9_fields ‹_›
  · exact encodeRO9_fields ‹_›
  · split
    · exact encode_jsr_fields ‹_› ‹_›
    · exact encode_jsrr_fields ‹_› (Bool.eq_false_of_not_eq_true ‹_›)
  · split
    · exact encodeRRI5_fields ‹_› ‹_›
    · exact encodeRRR_fields ‹_› (Bool.eq_false_of_not_eq_true ‹_›)
  · exact encodeRBO6_fields ‹_›
  · exact encodeRBO6_fields ‹_›
  · exact encodeNone_fields ‹_›
  · exact encodeRBO6_fields ‹_›
  · exact encodeRO9_fields ‹_›
  · exact encodeRO9_fields ‹_›
  · exact encode_jmp_fields ‹_›
  · exact encodeNone_fields ‹_›
  · exact encodeRO9_fields ‹_›
  · -- no seventeenth opcode is left
    simp only [imp_false] at *
    bv_omega

/-- R68: the defined vectors as a range of numbers. -/
theorem definedTrapVector_eq_false_iff (v : BitVec 8) :
    definedTrapVector v = false ↔ v.toNat < 0x20 ∨ 0x25 < v.toNat := by
  simp only [definedTrapVector, Bool.and_eq_false_iff, decide_eq_false_iff_not, BitVec.not_le, BitVec.lt_def,
    BitVec.toNat_ofNat]

theorem decodeTrap_wf (w : Word) : (decodeTrap w).wf = true := by
  unfold decodeTrap
  split
  case h_7 =>
    rw [Instr.wf, Bool.not_eq_true', definedTrapVector_eq_false_iff]
    simp only [imp_false] at *
    bv_omega
  all_goals rfl

/-- R70: a word decodes to TRAP_UNDEF only when its vector is none of the six defined ones. -/
theorem decode_wf (w : Word) : (decode w).wf = true := by
  unfold decode
  split
  case h_16 => exact decodeTrap_wf w
  case h_2 | h_5 | h_6 => split <;> rfl
  all_goals rfl

/-! ### Registers and flags (R20, R84) -/

/-- Settles O8: only the register written differs, and that one reads the value. -/
theorem registersReadWhatWasLastWritten : Obligations.RegistersReadWhatWasLastWritten := fun s r v =>
  ⟨getReg_setReg_same s r v, fun _ hq => getReg_setReg_ne s v (List.ne_of_not_mem_cons hq), rfl, rfl, fun _ _ => rfl,
    ⟨rfl, rfl⟩, rfl, rfl, rfl⟩

/-- R84: the flag of the sign bit is the flag of the ranges. -/
theorem condOf_eq_flagOf (v : Word) : condOf v = flagOf v := by
  have hz : v = 0x0000#16 ↔ v.toNat = 0 := BitVec.toNat_inj.symm
  have hn : v[15] = true ↔ ¬ v.toNat ≤ 0x7FFF := by
    rw [← BitVec.getLsbD_eq_getElem, ← BitVec.msb_eq_getLsbD_last, BitVec.msb_eq_decide, decide_eq_true_eq]
    omega
  simp only [condOf, flagOf, hz, hn, ite_not]

/-! ### What an instruction does to the registers, `PC`, `COND`, `RUN` and `FAULT` -/

/-- `t` has the general registers of `s` but those in `rs`, its `PC`, `COND`, `RUN` and `FAULT`. -/
structure CoreKept (rs : List Reg) (s t : State) : Prop where
  regs : RegsKept rs s t
  pc : t.pc = s.pc
  cond : t.cond = s.cond
  run : t.run = s.run
  fault : t.fault = s.fault

theorem CoreKept.refl (rs : List Reg) (s : State) : CoreKept rs s s := ⟨fun _ _ => rfl, rfl, rfl, rfl, rfl⟩

theorem CoreKept.trans {rs : List Reg} {s t u : State} (h : CoreKept rs s t) (k : CoreKept rs t u) : CoreKept rs s u :=
  ⟨fun r hr => (k.regs r hr).trans (h.regs r hr), k.pc.trans h.pc, k.cond.trans h.cond, k.run.trans h.run,
    k.fault.trans h.fault⟩

/-- Memory and the streams are no part of it: an operation on them alone keeps the rest. -/
theorem CoreKept.outside {rs : List Reg} (s : State) (mem : Memory) (input : List Keystroke) (console : List Byte) :
    CoreKept rs s { s with mem := mem, input := input, console := console } := ⟨fun _ _ => rfl, rfl, rfl, rfl, rfl⟩

theorem CoreKept.of_reads {rs : List Reg} {s t : State} (h : ReadsTo s t) : CoreKept rs s t := by
  rw [h.frame]
  exact .outside s _ _ _

theorem CoreKept.setReg {rs : List Reg} {r : Reg} (hr : r ∈ rs) (s : State) (v : Word) : CoreKept rs s (s.setReg r v) :=
  ⟨fun _ hq => getReg_setReg_ne s v fun e => hq (e ▸ hr), rfl, rfl, rfl, rfl⟩

/-- R130: the common part of a TRAP writes R7. -/
theorem CoreKept.enterTrap {rs : List Reg} (h7 : 7 ∈ rs) (s : State) : CoreKept rs s s.enterTrap := .setReg h7 s s.pc

/-- The string loop after the common part of a TRAP (R133, R135). -/
theorem CoreKept.of_string {s v : State} (h : ReadsTo s.enterTrap v) (bs : List Byte) :
    CoreKept [7] s (v.consoleWriteAll bs) :=
  (CoreKept.enterTrap List.mem_cons_self s).trans ((CoreKept.of_reads h).trans (.outside v _ _ _))

/-- R150: the instructions that can raise a fault, and its cause. -/
inductive Raises : Instr → FaultCause → Prop where
  | rti (unused : BitVec 12) : Raises (.rti unused) .illegalOpcodeRti
  | res (unused : BitVec 12) : Raises (.res unused) .illegalOpcodeRes
  | trapUndef (unused : BitVec 4) (v : BitVec 8) : Raises (.trapUndef unused v) .undefinedTrap
  | trapPuts (unused : BitVec 4) : Raises (.trapPuts unused) .stringOverrun
  | trapPutsp (unused : BitVec 4) : Raises (.trapPutsp unused) .stringOverrun

/-- The five ways in which `i` can complete from `s`: all reach a state `u` in which, of the registers, at most those of `i`
have been written, and then end as the constructor says. -/
inductive CoreEffect (i : Instr) (s : State) : State → Prop where
  /-- Nothing further. -/
  | kept {u : State} (hu : CoreKept (writtenRegs i) s u) (hf : flagReg i = none) (hh : ∀ x, i ≠ .trapHalt x) :
      CoreEffect i s u
  /-- R85: a result and its flag. -/
  | result {u : State} (dr : Reg) (v : Word) (hu : CoreKept (writtenRegs i) s u) (hr : dr ∈ writtenRegs i)
      (hf : flagReg i = some dr) (hh : ∀ x, i ≠ .trapHalt x) : CoreEffect i s (u.writeResult dr v)
  /-- R24: a transfer of control. -/
  | transfer {u : State} (pc : Word) (hu : CoreKept (writtenRegs i) s u) (ht : transfersControl i = true)
      (hf : flagReg i = none) (hh : ∀ x, i ≠ .trapHalt x) : CoreEffect i s (u.setPc pc)
  /-- R151: a fault, whose info is the instruction word. -/
  | faulted {u : State} (c : FaultCause) (hu : CoreKept (writtenRegs i) s u) (hc : Raises i c) (hf : flagReg i = none) :
      CoreEffect i s (u.raiseFault c (encode i))
  /-- R136: a halt. -/
  | halted {u : State} (x : BitVec 4) (hu : CoreKept (writtenRegs i) s u) (hi : i = .trapHalt x) (hf : flagReg i = none) :
      CoreEffect i s u.stop

/-- Every instruction that completes does so in one of the five ways. -/
theorem exec_coreEffect {i : Instr} {s t : State} (h : exec i s = .next t) : CoreEffect i s t := by
  cases i with
  | br n z p off9 =>
    rw [exec_br] at h
    cases h
    exact .transfer _ (.refl _ s) rfl rfl nofun
  | jmp _ baser _ =>
    cases h
    exact .transfer _ (.refl _ s) rfl rfl nofun
  | jsr _ | jsrr _ _ _ =>
    cases h
    exact .transfer _ (.setReg List.mem_cons_self s s.pc) rfl rfl nofun
  | add dr _ _ _ | addi dr _ _ | and dr _ _ _ | andi dr _ _ | not dr _ _ | lea dr _ =>
    cases h
    exact .result dr _ (.refl _ s) List.mem_cons_self rfl nofun
  | ld dr _ | ldr dr _ _ =>
    cases h
    exact .result dr _ (.of_reads (.one s _)) List.mem_cons_self rfl nofun
  | ldi dr off9 =>
    cases h
    exact .result dr _ (.of_reads (.step (pcRelative s.pc off9) (.one _ _))) List.mem_cons_self rfl nofun
  | st _ _ | str _ _ _ =>
    cases h
    exact .kept (.outside s _ _ _) rfl nofun
  | sti sr off9 =>
    cases h
    exact .kept (.trans (.of_reads (.one s (pcRelative s.pc off9))) (.outside _ _ _ _)) rfl nofun
  | trapGetc unused =>
    rcases execTrapGetc_cases s with ⟨-, e⟩ | ⟨k, rest, -, e⟩ <;> cases e.symm.trans h
    exact .result 0 _ (.trans (.enterTrap (by simp [writtenRegs]) s) (.outside _ _ _ _)) List.mem_cons_self rfl nofun
  | trapIn unused =>
    rcases execTrapIn_cases s with ⟨-, e⟩ | ⟨k, rest, -, e⟩ <;> cases e.symm.trans h
    exact .result 0 _ (.trans (.enterTrap (by simp [writtenRegs]) s) (.outside _ _ _ _)) List.mem_cons_self rfl nofun
  | trapPuts unused =>
    obtain ⟨bs, v, hr, e⟩ := execTrapPuts_cases s unused
    have hv : CoreKept [7] s (v.consoleWriteAll bs) := .of_string hr bs
    rcases e with e | e <;> cases e.symm.trans h
    · exact .kept hv rfl nofun
    · exact .faulted _ hv (.trapPuts unused) rfl
  | trapPutsp unused =>
    obtain ⟨bs, v, hr, e⟩ := execTrapPutsp_cases s unused
    have hv : CoreKept [7] s (v.consoleWriteAll bs) := .of_string hr bs
    rcases e with e | e <;> cases e.symm.trans h
    · exact .kept hv rfl nofun
    · exact .faulted _ hv (.trapPutsp unused) rfl
  | trapOut _ =>
    cases h
    exact .kept (.trans (.enterTrap List.mem_cons_self s) (.outside _ _ _ _)) rfl nofun
  | trapHalt unused =>
    cases h
    exact .halted unused (.trans (.enterTrap List.mem_cons_self s) (.outside _ _ _ _)) rfl rfl
  | trapUndef unused v =>
    cases h
    exact .faulted _ (.enterTrap List.mem_cons_self s) (.trapUndef unused v) rfl
  | rti unused =>
    cases h
    exact .faulted _ (.refl _ s) (.rti unused) rfl
  | res unused =>
    cases h
    exact .faulted _ (.refl _ s) (.res unused) rfl

/-! ### The step (R21, R24, R28, R86) -/

@[simp] theorem fetch_snd_getReg (s : State) (q : Reg) : s.fetch.2.getReg q = s.getReg q := afterRead_getReg s s.pc q

@[simp] theorem fetch_snd_pc (s : State) : s.fetch.2.pc = s.pc + 1#16 := rfl

@[simp] theorem fetch_snd_cond (s : State) : s.fetch.2.cond = s.cond := afterRead_cond s s.pc

@[simp] theorem fetch_snd_run (s : State) : s.fetch.2.run = s.run := afterRead_run s s.pc

@[simp] theorem fetch_snd_fault (s : State) : s.fetch.2.fault = s.fault := afterRead_fault s s.pc

/-- A running core's step completes in one of the five ways, from the state after its fetch. -/
theorem step_coreEffect {s t : State} (hrun : s.run = true) (h : step s = .next t) :
    CoreEffect (decode s.fetch.1) s.fetch.2 t :=
  exec_coreEffect ((step_of_run hrun).symm.trans h)

/-- R21: each of the five ways writes no register but the instruction's own. -/
theorem CoreEffect.regs {i : Instr} {s t : State} (h : CoreEffect i s t) : RegsKept (writtenRegs i) s t := by
  cases h with
  | kept hu _ _ | transfer _ hu _ _ _ | faulted _ hu _ _ | halted _ hu _ _ => exact hu.regs
  | result dr v hu hr =>
    intro q hq
    have hne : q ≠ dr := fun e => hq (e ▸ hr)
    rw [writeResult_eq, setCC_getReg, getReg_setReg_ne _ _ hne, hu.regs q hq]

/-- Settles O49: the fetch writes no register, and the instruction only its own. -/
theorem stepWritesOnlyTheNamedRegisters : Obligations.StepWritesOnlyTheNamedRegisters := fun s _ hrun h q hq =>
  ((step_coreEffect hrun h).regs q hq).trans (fetch_snd_getReg s q)

/-- R24: only a transfer of control replaces `PC`. -/
theorem CoreEffect.pc {i : Instr} {s t : State} (h : CoreEffect i s t) (ht : transfersControl i = false) :
    t.pc = s.pc := by
  cases h with
  | kept hu _ _ | faulted _ hu _ _ | halted _ hu _ _ => exact hu.pc
  | result dr v hu => simpa using hu.pc
  | transfer _ _ ht' => simp [ht] at ht'

/-- Settles O52: the fetch advances `PC`, and the instruction leaves it there. -/
theorem pcAdvancesByOneButAtTransfers : Obligations.PcAdvancesByOneButAtTransfers := fun s _ hrun h ht =>
  ((step_coreEffect hrun h).pc ht).trans (fetch_snd_pc s)

/-- R28, R85: a flag-setting instruction sets the flag of its result. -/
theorem CoreEffect.cond_of_flagReg {i : Instr} {s t : State} (h : CoreEffect i s t) {r : Reg} (hf : flagReg i = some r) :
    t.cond = flagOf (t.getReg r) := by
  cases h with
  | result dr v _ _ hf' =>
    cases hf.symm.trans hf'
    simp [condOf_eq_flagOf]
  | kept _ hf' _ | transfer _ _ _ hf' _ | faulted _ _ _ hf' | halted _ _ _ hf' => simp [hf] at hf'

/-- R28: every other instruction leaves `COND`. -/
theorem CoreEffect.cond_kept {i : Instr} {s t : State} (h : CoreEffect i s t) (hf : flagReg i = none) :
    t.cond = s.cond := by
  cases h with
  | kept hu _ _ | transfer _ hu _ _ _ | faulted _ hu _ _ | halted _ hu _ _ => exact hu.cond
  | result _ _ _ _ hf' => simp [hf] at hf'

/-! ### `COND` is read by BR only (R28) -/

@[simp] theorem withCond_getCell (c : Cond) (s : State) (a : Word) : (withCond c s).getCell a = s.getCell a := rfl

@[simp] theorem withCond_getReg (c : Cond) (s : State) (q : Reg) : (withCond c s).getReg q = s.getReg q := rfl

@[simp] theorem withCond_enterTrap (c : Cond) (s : State) : (withCond c s).enterTrap = withCond c s.enterTrap := rfl

/-- A read does not look at `COND`. -/
theorem afterRead_withCond (c : Cond) (s : State) (a : Word) :
    (withCond c s).afterRead a = withCond c (s.afterRead a) := by
  have hk : (withCond c s).pollsAt a = s.pollsAt a := rfl
  cases h : s.pollsAt a
  · rw [afterRead_plain _ h, afterRead_plain _ (hk.trans h)]
  · simp only [State.afterRead, hk, h, if_true]
    obtain ⟨regs, pc, cond, run, fault, mem, input, console, cfg⟩ := s
    rcases input with _ | ⟨⟨_ | q, c⟩, rest⟩ <;> rfl

theorem memRead_withCond (c : Cond) (s : State) (a : Word) :
    (withCond c s).memRead a = ((s.memRead a).1, withCond c (s.memRead a).2) := by
  simp only [State.memRead, afterRead_withCond, withCond_getCell]

/-- The string loop does not look at `COND`. -/
theorem emitString_withCond (f : Word → List Byte) (w : Word) (c : Cond) (k : Nat) (a : Word) (s : State) :
    State.emitString f w k a (withCond c s) = withCond c (State.emitString f w k a s) := by
  induction k generalizing a s with
  | zero =>
    simp only [State.emitString, memRead_withCond]
    split_ifs <;> rfl
  | succ k ih =>
    simp only [State.emitString, memRead_withCond]
    split_ifs
    · rfl
    · exact ih _ ((s.memRead a).2.consoleWriteAll _)

/-- R28: an instruction other than BR does the same to the rest of the state whatever `COND` is. -/
theorem exec_withCond {i : Instr} (hi : ∀ n z p off9, i ≠ .br n z p off9) (c : Cond) (s : State) :
    mapState eraseCond (exec i (withCond c s)) = mapState eraseCond (exec i s) := by
  cases i with
  | br n z p off9 => exact absurd rfl (hi n z p off9)
  | ld _ _ | ldr _ _ _ | ldi _ _ | sti _ _ =>
    simp only [exec, execLd, execLdr, execLdi, execSti, memRead_withCond]
    rfl
  | trapPuts _ | trapPutsp _ =>
    simp only [exec, execTrapPuts, execTrapPutsp, withCond_enterTrap, withCond_getReg, emitString_withCond]
    rfl
  | trapGetc _ | trapIn _ => rcases s with ⟨_, _, _, _, _, _, _ | ⟨k, rest⟩, _, _⟩ <;> rfl
  | _ => rfl

/-- Settles O51: the flag each of the five ways leaves, and that an instruction other than BR does not look at it. -/
theorem condIsWrittenByFlagSettersAndReadByBr : Obligations.CondIsWrittenByFlagSettersAndReadByBr := by
  refine ⟨fun s t hrun h => ?_, fun i s c hi => exec_withCond hi c s⟩
  have he := step_coreEffect hrun h
  cases hf : flagReg (decode s.fetch.1) with
  | none => exact (he.cond_kept hf).trans (fetch_snd_cond s)
  | some r => exact he.cond_of_flagReg hf

/-! ### What stops a run (R30, R86, R151, R154) -/

/-- R86: the core runs on, without a fault, but after a halt, which records none, and a fault of the instruction, whose info
is the instruction word. -/
theorem CoreEffect.stops {i : Instr} {s t : State} (h : CoreEffect i s t) :
    (t.run = s.run ∧ t.fault = s.fault ∧ ∀ x, i ≠ .trapHalt x) ∨
    (t.run = false ∧ t.fault = s.fault ∧ ∃ x, i = .trapHalt x) ∨
    (t.run = false ∧ ∃ c, Raises i c ∧ t.fault = some ⟨c, encode i⟩) := by
  cases h with
  | kept hu _ hh => exact .inl ⟨hu.run, hu.fault, hh⟩
  | result dr v hu _ _ hh => exact .inl ⟨by simpa using hu.run, by simpa using hu.fault, hh⟩
  | transfer _ hu _ _ hh => exact .inl ⟨hu.run, hu.fault, hh⟩
  | halted x hu hi => exact .inr (.inl ⟨rfl, hu.fault, x, hi⟩)
  | faulted c _ hc => exact .inr (.inr ⟨rfl, c, hc, rfl⟩)

theorem Raises.ne_trapHalt {i : Instr} {c : FaultCause} (h : Raises i c) (x : BitVec 4) : i ≠ .trapHalt x := by
  cases h <;> nofun

/-- Settles O55: the core stops in two of the three ways, and the word of an instruction shows its opcode and vector. -/
theorem runStopsOnlyByHaltOrFault : Obligations.RunStopsOnlyByHaltOrFault := by
  intro s t hrun hfault h
  have hword := encode_decode s.fetch.1
  have hwf := decode_wf s.fetch.1
  rcases (step_coreEffect hrun h).stops with ⟨hr, hf, hh⟩ | ⟨hr, hf, hh⟩ | ⟨hr, c, hc, hf⟩
  · rw [fetch_snd_run, hrun] at hr
    rw [fetch_snd_fault, hfault] at hf
    exact ⟨by simp [hr, hf, hh], by simp [hf], fun x hx => absurd hx (hh x)⟩
  · rw [fetch_snd_fault, hfault] at hf
    exact ⟨by simp [hr, hh], by simp [hf], fun _ _ => ⟨hr, hf⟩⟩
  · refine ⟨by simp [hr, hf], fun f e => ?_, fun x hx => absurd hx (hc.ne_trapHalt x)⟩
    cases hf.symm.trans e
    refine ⟨hword, ?_⟩
    rw [← hword]
    generalize decode s.fetch.1 = i at hc hwf ⊢
    cases hc with
    | rti u => exact opcodeOf_encodeNone _ u
    | res u => exact opcodeOf_encodeNone _ u
    | trapUndef u v =>
      refine ⟨opcodeOf_encodeTrap u v, ?_⟩
      rw [encode, vector_encodeTrap]
      exact (definedTrapVector_eq_false_iff v).1 (by simpa [Instr.wf] using hwf)
    | trapPuts u => exact ⟨opcodeOf_encodeTrap u _, .inl (vector_encodeTrap u _)⟩
    | trapPutsp u => exact ⟨opcodeOf_encodeTrap u _, .inr (vector_encodeTrap u _)⟩

/-! ### Reset and load (R36, R38, R56) -/

/-- Settles O44: the fields of the reset state, and the empty memory that reads as zero. -/
theorem resetStateIsAsTheSpecSays : Obligations.ResetStateIsAsTheSpecSays :=
  ⟨rfl, rfl, rfl, rfl, rfl, fun _ => rfl⟩

theorem reset_inv : Safety.Inv State.reset := ⟨⟨.nil, nofun⟩, nofun⟩

/-- R45: a store to a cell keeps the invariant. -/
theorem setCell_inv {s : State} (h : Safety.Inv s) (a v : Word) : Safety.Inv (s.setCell a v) :=
  ⟨setCell_wf h.1 a v, h.2⟩

theorem loadWords_inv (ws : List Word) {s : State} (h : Safety.Inv s) (a : Nat) :
    Safety.Inv (State.loadWords a ws s) := by
  induction ws generalizing a s with
  | nil => exact h
  | cons w ws ih =>
    unfold State.loadWords
    split
    · exact ih (setCell_inv h _ w) (a + 1)
    · exact h

theorem loadImages_inv (images : List Image) {s : State} (h : Safety.Inv s) : Safety.Inv (s.loadImages images) := by
  induction images generalizing s with
  | nil => exact h
  | cons i images ih => exact ih (loadWords_inv i.words h i.origin.toNat)

/-- Settles O45: reset meets the invariant, and loading is a sequence of stores. -/
theorem resetAndLoadMeetTheInvariant : Obligations.ResetAndLoadMeetTheInvariant :=
  ⟨reset_inv, fun images => loadImages_inv images reset_inv⟩

end Sys2Proof.Proofs
end

section
/-! Proofs of the statements of spec/20_memory.md: what reads, stores and the load of an image do to the memory cells (R44, R45,
R49, R56), the canonical form of memory (R40), which cells a step changes (R57), and that a step which neither polls nor asks
for a character does not look at the input source (R39). The statements about reads come from three equations for `memRead`:
plain, polling with a key, polling without one. -/

namespace Sys2Proof.Proofs

open Sys2Proof Sys2Proof.Machine Sys2Proof.Claims Sys2Proof.Laws

/-! ### One read (R44) -/

/-- R44: a read that does not take the keyboard path. -/
theorem memRead_plain {s : State} {a : Word} (h : s.pollsAt a = false) : s.memRead a = (s.getCell a, s) := by
  rw [State.memRead, afterRead_plain s h]

/-- R44: a read that takes the keyboard path polls. -/
theorem memRead_of_polls {s : State} {a : Word} (h : Polls s a) :
    s.memRead a = (s.pollKeyboard.getCell Config.kbsrAddr, s.pollKeyboard) := by
  have hr : s.afterRead a = s.pollKeyboard := if_pos ((pollsAt_iff s a).2 h)
  rw [State.memRead, hr, h.2]
  rfl

/-- R44, D7: a polling read that finds a key. -/
theorem memRead_ready {s : State} {a : Word} (h : Polls s a) {c : Byte} {rest : List Keystroke}
    (hi : s.input = ⟨0, c⟩ :: rest) :
    s.memRead a = (0x8000#16,
      ((withInput rest s).setCell Config.kbsrAddr 0x8000#16).setCell Config.kbdrAddr (zext16 c)) := by
  rw [memRead_of_polls h, pollKeyboard_ready s hi, getCell_setCell_ne _ _ (by decide), getCell_setCell_same]
  rfl

/-- R44, D7: a polling read that finds none. -/
theorem memRead_quiet {s : State} {a : Word} (h : Polls s a) (hk : s.keyAvailable = false) :
    s.memRead a = (0x0000#16, s.passQuietPoll.setCell Config.kbsrAddr 0x0000#16) := by
  rw [memRead_of_polls h, pollKeyboard_quiet s hk, getCell_setCell_same]

theorem passQuietPoll_getCell (s : State) (a : Word) : s.passQuietPoll.getCell a = s.getCell a := by
  rw [passQuietPoll_eq]
  rfl

/-- Settles O10: the plain read, the poll with a key, the poll without one, and what no read changes. -/
theorem memReadPollsTheKeyboardCell : Obligations.MemReadPollsTheKeyboardCell := by
  refine fun s a => ⟨fun h => memRead_plain ((not_polls_iff_pollsAt s a).1 h), fun h c rest hi => ?_, fun h hk => ?_,
    fun r _ => afterRead_getReg s a r, afterRead_pc s a, afterRead_cond s a, afterRead_console s a, afterRead_run s a,
    afterRead_fault s a, afterRead_cfg s a⟩
  · rw [memRead_ready h hi]
    refine ⟨rfl, ?_, getCell_setCell_same _ _ _, fun b hb => ?_, rfl⟩
    · exact (getCell_setCell_ne _ _ (by decide)).trans (getCell_setCell_same _ _ _)
    · obtain ⟨hsr, hdr⟩ : b ≠ Config.kbsrAddr ∧ b ≠ Config.kbdrAddr := by
        simpa [keyboardCells, Config.kbsrAddr, Config.kbdrAddr] using hb
      rw [getCell_setCell_ne _ _ hdr, getCell_setCell_ne _ _ hsr]
      rfl
  · rw [memRead_quiet h hk]
    refine ⟨rfl, getCell_setCell_same _ _ _, fun b hb => ?_, passQuietPoll_chars s⟩
    exact (getCell_setCell_ne _ _ (List.ne_of_not_mem_cons hb)).trans (passQuietPoll_getCell s b)

/-! ### Stores (R45) -/

theorem setCell_cellsKept (s : State) (a v : Word) : CellsKept [a] s (s.setCell a v) := fun _ hb =>
  getCell_setCell_ne s v (List.ne_of_not_mem_cons hb)

/-- Settles O9: only the cell written differs, and that one reads the value. -/
theorem storeIsPlainAtEveryAddress : Obligations.StoreIsPlainAtEveryAddress := fun s a v =>
  ⟨getCell_setCell_same s a v, setCell_cellsKept s a v, fun _ _ => rfl, rfl, rfl, ⟨rfl, rfl⟩, rfl, rfl, rfl⟩

/-! ### Reads and stores again (R49) -/

theorem erase_of_forall_ne {m : Memory} {a : Nat} (h : ∀ e ∈ m, e.1 ≠ a) : Memory.erase m a = m :=
  List.filter_eq_self.2 fun e he => decide_eq_true (h e he)

/-- Removing the cell that was put into a memory without it gives the memory back. -/
theorem erase_insert {m : Memory} {a : Nat} (v : Word) (h : ∀ e ∈ m, e.1 ≠ a) :
    Memory.erase (Memory.insert m a v) a = m := by
  induction m with
  | nil => simp [Memory.insert, Memory.erase]
  | cons x m ih =>
    obtain ⟨hx, hm⟩ := List.forall_mem_cons.1 h
    unfold Memory.insert
    split
    · simpa [Memory.erase] using erase_of_forall_ne h
    · simpa [Memory.erase, hx] using ih hm

/-- A write of the value just written changes nothing, whatever the form of the list. -/
theorem write_write_same (m : Memory) (a : Nat) (v : Word) :
    Memory.write (Memory.write m a v) a v = Memory.write m a v := by
  have hm : ∀ e ∈ Memory.erase m a, e.1 ≠ a := fun _ he => (mem_erase.1 he).2
  unfold Memory.write
  split
  · exact erase_of_forall_ne hm
  · rw [erase_insert v hm]

/-- Settles O12: a plain read leaves the state; two polls, with two keys and with one; a store over the same store. -/
theorem onlyTheStatusCellReadIsNotIdempotent : Obligations.OnlyTheStatusCellReadIsNotIdempotent := by
  refine ⟨fun s a ha => ?_, fun s c d rest hk hi => ?_, fun s c hk hi => ?_, fun s a v => ?_⟩
  · have hp : s.pollsAt a = false := (not_polls_iff_pollsAt s a).1 fun h => ha h.2
    simp only [memRead_plain hp, and_self]
  · rw [memRead_ready ⟨hk, rfl⟩ hi, memRead_ready (c := d) (rest := rest)]
    exacts [⟨rfl, rfl, getCell_setCell_same _ _ _, rfl⟩, ⟨hk, rfl⟩, rfl]
  · rw [memRead_ready ⟨hk, rfl⟩ hi, memRead_quiet]
    exacts [⟨rfl, rfl⟩, ⟨hk, rfl⟩, rfl]
  · simp only [State.memWrite, State.setCell, write_write_same]

/-! ### The canonical form (R40) -/

/-- A cell that reads nonzero is listed. -/
theorem mem_of_read {m : Memory} {a : Nat} (h : Memory.read m a ≠ 0#16) : (a, Memory.read m a) ∈ m := by
  induction m with
  | nil => exact absurd rfl h
  | cons x m ih =>
    by_cases hx : x.1 = a
    · subst hx
      simp [Memory.read]
    · simp only [Memory.read, hx, if_false] at h ⊢
      exact List.mem_cons_of_mem _ (ih h)

/-- With the addresses strictly rising, a listed cell reads as its value. -/
theorem read_of_mem {m : Memory} (h : m.Pairwise (fun x y => x.1 < y.1)) {e : Nat × Word} (he : e ∈ m) :
    Memory.read m e.1 = e.2 := by
  induction h with
  | nil => exact absurd he List.not_mem_nil
  | @cons x m hx _ ih =>
    rcases List.mem_cons.1 he with rfl | he
    · simp [Memory.read]
    · simpa [Memory.read, (hx e he).ne] using ih he

theorem toNat_ofNat_addr {b : Nat} (h : b < Config.memWords) : (BitVec.ofNat 16 b).toNat = b :=
  (BitVec.toNat_ofNat b 16).trans (Nat.mod_eq_of_lt h)

/-- A canonical memory lists no cell that another one with the same cells does not list. -/
theorem subset_of_read_eq {m m' : Memory} (h : Memory.wf m)
    (heq : ∀ a : Word, Memory.read m a.toNat = Memory.read m' a.toNat) : m ⊆ m' := by
  intro e he
  obtain ⟨haddr, hval⟩ := h.2 e he
  have hread : Memory.read m' e.1 = e.2 := by
    rw [← toNat_ofNat_addr haddr, ← heq, toNat_ofNat_addr haddr, read_of_mem h.1 he]
  have hmem : (e.1, Memory.read m' e.1) ∈ m' := mem_of_read (hread ▸ hval)
  rwa [hread] at hmem

/-- Settles O13: the two lists hold the same cells, and there is one way to put them in order. -/
theorem canonicalMemoriesWithEqualCellsAreEqual : Obligations.CanonicalMemoriesWithEqualCellsAreEqual := by
  intro m m' hm hm' heq
  have : Std.Asymm (fun x y : Nat × Word => x.1 < y.1) := ⟨fun _ _ => Nat.lt_asymm⟩
  exact hm.1.eq_of_mem_iff hm'.1 fun _ =>
    ⟨fun he => subset_of_read_eq hm heq he, fun he => subset_of_read_eq hm' (fun a => (heq a).symm) he⟩

/-! ### Loading an image (R56) -/

/-- R56: the words of a load stand from the address `b` up, as far as 0xFFFF. -/
theorem loadWords_getCell (b : Nat) (ws : List Word) (s : State) (a : Word) :
    (State.loadWords b ws s).getCell a =
      if b ≤ a.toNat then (ws[a.toNat - b]?).getD (s.getCell a) else s.getCell a := by
  have ha : a.toNat < Config.memWords := a.isLt
  induction ws generalizing b s with
  | nil => simp [State.loadWords]
  | cons w ws ih =>
    unfold State.loadWords
    split
    · next hb =>
      have hcell : a = BitVec.ofNat 16 b ↔ a.toNat = b := by
        rw [← BitVec.toNat_inj, toNat_ofNat_addr hb]
      rw [ih, getCell_setCell]
      simp only [hcell]
      rcases Nat.lt_trichotomy a.toNat b with hlt | rfl | hgt
      · have h1 : ¬ b + 1 ≤ a.toNat := by omega
        simp [h1, hlt.ne, hlt]
      · simp
      · have h1 : a.toNat - b = a.toNat - (b + 1) + 1 := by omega
        simp [hgt, hgt.le, hgt.ne', h1]
    · next hb =>
      have h1 : ¬ b ≤ a.toNat := by omega
      rw [if_neg h1]

/-- A load changes memory only. -/
theorem loadWords_frame (b : Nat) (ws : List Word) (s : State) :
    State.loadWords b ws s = { s with mem := (State.loadWords b ws s).mem } := by
  induction ws generalizing b s with
  | nil => rfl
  | cons w ws ih =>
    unfold State.loadWords
    split
    · rw [ih]
      rfl
    · rfl

/-- Settles O46: the cells of the load, its frame, and that images are loaded one after the other. -/
theorem imageLoadPlacesTheWords : Obligations.ImageLoadPlacesTheWords := by
  intro s i
  have hf : s.loadImage i = { s with mem := (State.loadWords i.origin.toNat i.words s).mem } := loadWords_frame _ _ s
  refine ⟨loadWords_getCell i.origin.toNat i.words s, ?_⟩
  rw [hf]
  exact ⟨fun _ _ => rfl, rfl, rfl, ⟨rfl, rfl⟩, ⟨rfl, rfl, rfl⟩, fun j => congrArg (State.loadImage · j) hf⟩

/-! ### Which cells a step changes (R57) -/

/-- Reads change the keyboard cells only. -/
theorem readsTo_cellsKept {s u : State} (h : ReadsTo s u) : CellsKept keyboardCells s u := fun _ ha =>
  h.getCell_ne (List.ne_of_not_mem_cons ha) (List.ne_of_not_mem_cons (List.not_mem_of_not_mem_cons ha))

/-- `t` has the cells, but for those in `but`, that some reads leave which began with the memory and the parameters of `s`. -/
def CellsAfterReads (but : List Word) (s t : State) : Prop :=
  ∃ v u, v.mem = s.mem ∧ v.cfg = s.cfg ∧ ReadsTo v u ∧ CellsKept but u t

/-- The reads, then a state with the memory they leave. -/
theorem CellsAfterReads.of_mem {but : List Word} {s t u v : State} (hr : ReadsTo v u) (hv : v.mem = s.mem)
    (hc : v.cfg = s.cfg) (hm : t.mem = u.mem) : CellsAfterReads but s t :=
  ⟨v, u, hv, hc, hr, fun a _ => congrArg (Memory.read · a.toNat) hm⟩

/-- R44: of the cells not in `but`, reads change the keyboard cells at most. -/
theorem CellsAfterReads.cellsKept {but : List Word} {s t : State} (h : CellsAfterReads but s t) :
    CellsKept (but ++ keyboardCells) s t := by
  obtain ⟨v, u, hm, -, hr, hk⟩ := h
  intro a ha
  obtain ⟨hbut, hkey⟩ := not_or.1 (List.mem_append.not.1 ha)
  calc t.getCell a = u.getCell a := hk a hbut
    _ = v.getCell a := readsTo_cellsKept hr a hkey
    _ = s.getCell a := congrArg (Memory.read · a.toNat) hm

/-- R48: with the decoder absent reads change no cell. -/
theorem CellsAfterReads.cellsKept_of_no_decoder {but : List Word} {s t : State} (h : CellsAfterReads but s t)
    (hd : s.cfg.kbdMmio = false) : CellsKept but s t := by
  obtain ⟨v, u, hm, hc, hr, hk⟩ := h
  intro a ha
  rw [hk a ha, hr.eq_of_no_decoder (hc ▸ hd)]
  exact congrArg (Memory.read · a.toNat) hm

/-- Every instruction that completes changes, beyond what its reads change, the cell it stores to and no other. -/
theorem exec_cellsAfterReads {i : Instr} {s t : State} (h : exec i s = .next t) :
    CellsAfterReads (storeAddr i s) s t := by
  cases i with
  | st _ _ | str _ _ _ =>
    cases h
    exact ⟨s, s, rfl, rfl, .refl s, setCell_cellsKept s _ _⟩
  | sti sr off9 =>
    cases h
    exact ⟨s, s.afterRead (pcRelative s.pc off9), rfl, rfl, .one s _, setCell_cellsKept _ _ _⟩
  | br n z p off9 =>
    rw [exec_br] at h
    cases h
    exact .of_mem (.refl s) rfl rfl rfl
  | ld dr off9 =>
    cases h
    exact .of_mem (.one s (pcRelative s.pc off9)) rfl rfl rfl
  | ldr dr baser off6 =>
    cases h
    exact .of_mem (.one s (basePlusOffset (s.getReg baser) off6)) rfl rfl rfl
  | ldi dr off9 =>
    cases h
    exact .of_mem (.step (pcRelative s.pc off9) (.one _ (s.memRead (pcRelative s.pc off9)).1)) rfl rfl rfl
  | trapGetc _ =>
    rcases execTrapGetc_cases s with ⟨-, e⟩ | ⟨k, rest, -, e⟩ <;> cases e.symm.trans h
    exact .of_mem (.refl s) rfl rfl rfl
  | trapIn _ =>
    rcases execTrapIn_cases s with ⟨-, e⟩ | ⟨k, rest, -, e⟩ <;> cases e.symm.trans h
    exact .of_mem (.refl s) rfl rfl rfl
  | trapPuts unused =>
    obtain ⟨bs, v, hr, e | e⟩ := execTrapPuts_cases s unused <;> cases e.symm.trans h <;> exact .of_mem hr rfl rfl rfl
  | trapPutsp unused =>
    obtain ⟨bs, v, hr, e | e⟩ := execTrapPutsp_cases s unused <;> cases e.symm.trans h <;> exact .of_mem hr rfl rfl rfl
  | _ =>
    cases h
    exact .of_mem (.refl s) rfl rfl rfl

theorem fetch_snd_getCell (s : State) (a : Word) : s.fetch.2.getCell a = (s.afterRead s.pc).getCell a := rfl

/-- Settles O50: the fetch changes keyboard cells at most, the instruction those and the cell it stores to. -/
theorem memoryChangesOnlyByStoresAndPolls : Obligations.MemoryChangesOnlyByStoresAndPolls := by
  intro s t hrun h
  rw [step_of_run hrun] at h
  have he := exec_cellsAfterReads h
  refine ⟨fun a ha => ?_, fun hd a ha => ?_⟩
  · have hkey : a ∉ keyboardCells := fun hm => ha (List.mem_append_right _ hm)
    rw [he.cellsKept a ha, fetch_snd_getCell, readsTo_cellsKept (.one s s.pc) a hkey]
  · have hd' : s.fetch.2.cfg.kbdMmio = false := by rwa [fetch_snd_cfg]
    rw [he.cellsKept_of_no_decoder hd' a ha, fetch_snd_getCell, (ReadsTo.one s s.pc).eq_of_no_decoder hd]

/-! ### A stored word is fetched (R54) -/

/-- R101, R103, R105: an instruction that stores completes, after some reads, with the value of its register in the cell it
computes. -/
theorem exec_store {i : Instr} {s : State} {sr : Reg} {a : Word} (hr : storedReg i = some sr) (ha : storeAddr i s = [a]) :
    ∃ u, ReadsTo s u ∧ exec i s = .next (u.setCell a (s.getReg sr)) := by
  cases i with
  | st _ _ | str _ _ _ =>
    cases hr
    cases ha
    exact ⟨s, .refl s, rfl⟩
  | sti r off9 =>
    cases hr
    cases ha
    refine ⟨s.afterRead (pcRelative s.pc off9), .one s _, ?_⟩
    rw [← afterRead_getReg s (pcRelative s.pc off9)]
    rfl
  | _ => cases hr

/-- R54: a running core executes the word in the cell it fetches from without a poll. -/
theorem step_of_getCell {s : State} {pc w : Word} (hrun : s.run = true) (hpc : s.pc = pc) (hp : s.pollsAt pc = false)
    (hw : s.getCell pc = w) : step s = exec (decode w) (s.setPc (pc + 1#16)) := by
  subst hpc hw
  exact step_of_plain_fetch hrun hp

/-- Settles O16: the step of a store completes by `exec_store`, and the next fetch finds the value. -/
theorem storedWordIsTheNextInstruction : Obligations.StoredWordIsTheNextInstruction := by
  intro s i sr a hrun hf hi hsr ha
  have hs : step s = exec i (s.setPc (s.pc + 1#16)) := by
    rw [step_of_plain_fetch hrun ((not_polls_iff_pollsAt s s.pc).1 hf), hi]
  obtain ⟨u, hr, e⟩ := exec_store hsr ha
  have hu : CoreKept [] (s.setPc (s.pc + 1#16)) u := .of_reads hr
  have hcfg : u.cfg = s.cfg := by rw [hr.frame, setPc_cfg]
  refine ⟨_, hs.trans e, getCell_setCell_same u a _, fun hnext hq => ?_, fun hown => ?_⟩
  · subst hnext
    have hplain : u.pollsAt (s.pc + 1#16) = false := by
      rw [State.pollsAt, hcfg]
      exact (not_polls_iff_pollsAt s _).1 hq
    rw [show s.pc + 2#16 = s.pc + 1#16 + 1#16 from (BitVec.add_assoc s.pc 1#16 1#16).symm]
    exact step_of_getCell (hu.run.trans hrun) hu.pc hplain (getCell_setCell_same u _ _)
  · exact ⟨hs, hown ▸ getCell_setCell_same u a _, hu.pc⟩

/-! ### A step that does not poll ignores the input source (R39) -/

/-- A read that does not take the keyboard path does not look at the input source. -/
theorem memRead_withInput {s : State} {a : Word} (h : s.pollsAt a = false) (inp : List Keystroke) :
    (withInput inp s).memRead a = (s.getCell a, withInput inp s) := memRead_plain (s := withInput inp s) h

@[simp] theorem pc_withInput (inp : List Keystroke) (s : State) : (withInput inp s).pc = s.pc := rfl

@[simp] theorem getReg_withInput (inp : List Keystroke) (s : State) (q : Reg) :
    (withInput inp s).getReg q = s.getReg q := rfl

@[simp] theorem enterTrap_withInput (inp : List Keystroke) (s : State) :
    (withInput inp s).enterTrap = withInput inp s.enterTrap := rfl

theorem mem_scanAddrs_self (k : Nat) (a : Word) (s : State) : a ∈ scanAddrs k a s := by
  cases k with
  | zero => exact List.mem_cons_self
  | succ k =>
    unfold scanAddrs
    split <;> exact List.mem_cons_self

/-- A scan goes on from a nonzero cell. -/
theorem mem_scanAddrs_succ {k : Nat} {a b : Word} {s : State} (hz : s.getCell a ≠ 0#16)
    (hb : b ∈ scanAddrs k (a + 1#16) s) : b ∈ scanAddrs (k + 1) a s := by
  rw [scanAddrs, if_neg hz]
  exact List.mem_cons_of_mem a hb

/-- A string loop none of whose reads polls does not look at the input source. -/
theorem emitString_withInput (f : Word → List Byte) (w : Word) (inp : List Keystroke) (k : Nat) (a : Word) (s : State)
    (hq : ∀ b ∈ scanAddrs k a s, s.pollsAt b = false) :
    State.emitString f w k a (withInput inp s) = withInput inp (State.emitString f w k a s) := by
  have ha : s.pollsAt a = false := hq a (mem_scanAddrs_self k a s)
  induction k generalizing a s with
  | zero =>
    simp only [State.emitString, memRead_withInput ha, memRead_plain ha]
    split_ifs <;> rfl
  | succ k ih =>
    simp only [State.emitString, memRead_withInput ha, memRead_plain ha]
    split_ifs with hz
    · rfl
    · have hq' : ∀ b ∈ scanAddrs k (a + 1#16) (s.consoleWriteAll (f (s.getCell a))), s.pollsAt b = false := by
        intro b hb
        rw [scanAddrs_congr (t := s.consoleWriteAll _) (s := s) fun _ => rfl] at hb
        exact hq b (mem_scanAddrs_succ hz hb)
      exact ih _ (s.consoleWriteAll _) hq' (hq' _ (mem_scanAddrs_self k _ _))

/-- The scan of PUTS and PUTSP, which starts at R0. -/
theorem emitString_enterTrap_withInput (f : Word → List Byte) (w : Word) (inp : List Keystroke) (s : State)
    (hq : ∀ b ∈ scanAddrs (0xFFFF - (s.getReg 0).toNat) (s.getReg 0) s, s.pollsAt b = false) :
    State.emitString f w (cellsAbove (s.enterTrap.getReg 0)) (s.enterTrap.getReg 0) (withInput inp s.enterTrap) =
      withInput inp (s.enterTrap.emitString f w (cellsAbove (s.enterTrap.getReg 0)) (s.enterTrap.getReg 0)) := by
  rw [enterTrap_getReg_ne s (by decide)]
  refine emitString_withInput f w inp _ _ s.enterTrap fun b hb => hq b ?_
  rwa [scanAddrs_congr (t := s.enterTrap) (s := s) fun _ => rfl] at hb

/-- R39: an instruction that is no GETC or IN and none of whose reads polls does the same with any input source, and leaves
that source as it is. -/
theorem exec_withInput {i : Instr} {s : State} (inp : List Keystroke) (ha : asksForChar i = false)
    (hq : ∀ a ∈ readAddrs i s, s.pollsAt a = false) : exec i (withInput inp s) = mapState (withInput inp) (exec i s) := by
  cases i with
  | br n z p off9 =>
    simp only [exec_br]
    rfl
  | trapGetc _ | trapIn _ => cases ha
  | ld _ off9 | sti _ off9 =>
    have hp : s.pollsAt (pcRelative s.pc off9) = false := hq _ List.mem_cons_self
    simp only [exec, execLd, execSti, pc_withInput, memRead_withInput hp, memRead_plain hp]
    rfl
  | ldr dr baser off6 =>
    have hp : s.pollsAt (basePlusOffset (s.getReg baser) off6) = false := hq _ List.mem_cons_self
    simp only [exec, execLdr, getReg_withInput, memRead_withInput hp, memRead_plain hp]
    rfl
  | ldi dr off9 =>
    have hp : s.pollsAt (pcRelative s.pc off9) = false := hq _ List.mem_cons_self
    have hv : s.pollsAt (s.getCell (pcRelative s.pc off9)) = false :=
      hq _ (List.mem_cons_of_mem _ List.mem_cons_self)
    simp only [exec, execLdi, pc_withInput, memRead_withInput hp, memRead_withInput hv, memRead_plain hp,
      memRead_plain hv]
    rfl
  | trapPuts _ | trapPutsp _ =>
    simp only [exec, execTrapPuts, execTrapPutsp, enterTrap_withInput, getReg_withInput,
      emitString_enterTrap_withInput _ _ inp s hq]
    rfl
  | _ => rfl

/-- Settles O56: the same word is fetched, and its instruction does not look at the input source. -/
theorem stepWithoutInputReadsIgnoresTheInput : Obligations.StepWithoutInputReadsIgnoresTheInput := by
  intro s inp hrun hf ha hq
  have hp : s.pollsAt s.pc = false := (not_polls_iff_pollsAt s s.pc).1 hf
  rw [step_of_plain_fetch hrun hp, step_of_plain_fetch (s := withInput inp s) hrun hp]
  exact exec_withInput (s := s.setPc (s.pc + 1#16)) inp ha fun a hm => (not_polls_iff_pollsAt s a).1 (hq a hm)

end Sys2Proof.Proofs
end

section
/-! Proofs of the statements of spec/30_encoding.md: the decoder and the encoder invert each other (R62, R70), a word
decodes to the first row of the opcode table that selects it (R70, R71), and unused bits change no effect (R66). -/

namespace Sys2Proof.Proofs

open Sys2Proof Sys2Proof.Machine Sys2Proof.Claims Sys2Proof.Laws

/-! ### The fields of an encoded word, format by format (R62) -/

theorem fields_encodeRRR (op : BitVec 4) (d a b : Reg) (u : BitVec 2) :
    regAt (encodeRRR op d a b u) 9 = d ∧ regAt (encodeRRR op d a b u) 6 = a ∧ regAt (encodeRRR op d a b u) 0 = b ∧
      (encodeRRR op d a b u).extractLsb' 3 2 = u ∧ (encodeRRR op d a b u)[5] = false := by
  simp [encodeRRR, regAt, bit_eq, extract_or, extract_place, extract_place_off]

theorem fields_encodeRRI5 (op : BitVec 4) (d a : Reg) (imm5 : BitVec 5) :
    regAt (encodeRRI5 op d a imm5) 9 = d ∧ regAt (encodeRRI5 op d a imm5) 6 = a ∧
      (encodeRRI5 op d a imm5).extractLsb' 0 5 = imm5 ∧ (encodeRRI5 op d a imm5)[5] = true := by
  simp [encodeRRI5, regAt, bit_eq, extract_or, extract_place, extract_place_off]

theorem fields_encodeRO9 (op : BitVec 4) (r : Reg) (off9 : BitVec 9) :
    regAt (encodeRO9 op r off9) 9 = r ∧ (encodeRO9 op r off9).extractLsb' 0 9 = off9 := by
  simp [encodeRO9, regAt, extract_or, extract_place, extract_place_off]

theorem fields_encodeRBO6 (op : BitVec 4) (r b : Reg) (low : BitVec 6) :
    regAt (encodeRBO6 op r b low) 9 = r ∧ regAt (encodeRBO6 op r b low) 6 = b ∧
      (encodeRBO6 op r b low).extractLsb' 0 6 = low := by
  simp [encodeRBO6, regAt, extract_or, extract_place, extract_place_off]

theorem field_encodeNone (op : BitVec 4) (u : BitVec 12) : (encodeNone op u).extractLsb' 0 12 = u := by
  simp [encodeNone, extract_or, extract_place, extract_place_off]

/-- A bit placed as a field of width 1 is read back. -/
theorem ofBool_eq_one_iff (b : Bool) : BitVec.ofBool b = 1#1 ↔ b = true := BitVec.ofBool_eq_iff_eq (b' := true)

/-! ### The decoder reads every encoding back (R62, R70) -/

/-- R68, R130: a TRAP word goes to the vector dispatch with its own fields. -/
theorem decode_encodeTrap (u : BitVec 4) (v : BitVec 8) : decode (encodeTrap u v) = decodeTrap (encodeTrap u v) :=
  decode_of_opcodeF (opcodeOf_encodeTrap u v)

/-- R70: no operand of a well-formed instruction and no unused bit is lost by encoding it. -/
theorem decode_encode (i : Instr) (h : i.wf = true) : decode (encode i) = i := by
  cases i with
  | add _ _ _ _ | and _ _ _ _ => simp [encode, decode, opcodeOf_encodeRRR, fields_encodeRRR]
  | addi _ _ _ | andi _ _ _ => simp [encode, decode, opcodeOf_encodeRRI5, fields_encodeRRI5]
  | ld _ _ | st _ _ | ldi _ _ | sti _ _ | lea _ _ => simp [encode, decode, opcodeOf_encodeRO9, fields_encodeRO9]
  | ldr _ _ _ | str _ _ _ | not _ _ _ => simp [encode, decode, opcodeOf_encodeRBO6, fields_encodeRBO6]
  | rti _ | res _ => simp [encode, decode, opcodeOf_encodeNone, field_encodeNone]
  | br _ _ _ _ | jsr _ | jsrr _ _ _ | jmp _ _ _ =>
    -- formats of one row each, so their fields are read here
    simp [encode, decode, opcodeOf, regAt, bit_eq, ofBool_eq_one_iff, extract_or, extract_place, extract_place_off]
  | trapUndef u v =>
    have hv : definedTrapVector v = false := by simpa [Instr.wf] using h
    rw [encode, decode_encodeTrap, decodeTrap_undef (by rwa [vector_encodeTrap]), unused_encodeTrap, vector_encodeTrap]
  | trapGetc _ | trapOut _ | trapPuts _ | trapIn _ | trapPutsp _ | trapHalt _ =>
    rw [encode, decode_encodeTrap, decodeTrap, vector_encodeTrap, unused_encodeTrap]
    rfl

/-- Settles O2: the decoder finds each field of an encoded instruction where its format places it. -/
theorem decodeInvertsEncode : Obligations.DecodeInvertsEncode := decode_encode

/-- Settles O3: no word decodes to an ill-formed TRAP_UNDEF, and the fields the decoder takes cover the whole word. -/
theorem encodeInvertsDecode : Obligations.EncodeInvertsDecode := fun w => ⟨decode_wf w, encode_decode w⟩

/-! ### The opcode table (R70, R71) -/

/-- R71: every well-formed instruction is encoded in its own row. -/
theorem tableRow : (i : Instr) → TableRow.Statement i
  | .br _ _ _ _ => TableRow.br _ _ _ _
  | .add _ _ _ _ => TableRow.add _ _ _ _
  | .addi _ _ _ => TableRow.addi _ _ _
  | .ld _ _ => TableRow.ld _ _
  | .st _ _ => TableRow.st _ _
  | .jsrr _ _ _ => TableRow.jsrr _ _ _
  | .jsr _ => TableRow.jsr _
  | .and _ _ _ _ => TableRow.and _ _ _ _
  | .andi _ _ _ => TableRow.andi _ _ _
  | .ldr _ _ _ => TableRow.ldr _ _ _
  | .str _ _ _ => TableRow.str _ _ _
  | .rti _ => TableRow.rti _
  | .not _ _ _ => TableRow.not _ _ _
  | .ldi _ _ => TableRow.ldi _ _
  | .sti _ _ => TableRow.sti _ _
  | .jmp _ _ _ => TableRow.jmp _ _ _
  | .res _ => TableRow.res _
  | .lea _ _ => TableRow.lea _ _
  | .trapGetc _ => TableRow.trapGetc _
  | .trapOut _ => TableRow.trapOut _
  | .trapPuts _ => TableRow.trapPuts _
  | .trapIn _ => TableRow.trapIn _
  | .trapPutsp _ => TableRow.trapPutsp _
  | .trapHalt _ => TableRow.trapHalt _
  | .trapUndef _ _ => TableRow.trapUndef _ _

/-- R70: the row of the instruction of a word selects the word. -/
theorem row_of_word (w : Word) : ∃ r ∈ opcodeTable, r.mnemonic = (decode w).mnemonic ∧ r.selects w = true := by
  simpa only [encode_decode] using tableRow (decode w) (decode_wf w)

/-- Two rows that select one word agree on the bits that both masks cover. -/
theorem rows_agree_of_selects {w : Word} {r q : OpcodeRow} (hr : r.selects w = true) (hq : q.selects w = true) :
    r.value &&& q.mask = q.value &&& r.mask := by
  have hr' : w &&& r.mask = r.value := beq_iff_eq.1 hr
  have hq' : w &&& q.mask = q.value := beq_iff_eq.1 hq
  rw [← hr', ← hq', BitVec.and_assoc, BitVec.and_assoc, BitVec.and_comm r.mask]

theorem rows_eq_of_agree : ∀ r ∈ opcodeTable.dropLast, ∀ q ∈ opcodeTable.dropLast,
    r.value &&& q.mask = q.value &&& r.mask → r = q := by decide

/-- R70: the rows but TRAP_UNDEF are pairwise disjoint. -/
theorem row_unique {w : Word} {r q : OpcodeRow} (hr : r ∈ opcodeTable.dropLast) (hq : q ∈ opcodeTable.dropLast)
    (hrw : r.selects w = true) (hqw : q.selects w = true) : r = q :=
  rows_eq_of_agree r hr q hq (rows_agree_of_selects hrw hqw)

/-- R71: the last row, which selects every word of opcode 0xF. -/
def trapUndefRow : OpcodeRow := ⟨"TRAP_UNDEF", 0xF000#16, 0xF000#16⟩

theorem opcodeTable_eq : opcodeTable = opcodeTable.dropLast ++ [trapUndefRow] := rfl

theorem mem_opcodeTable_iff (r : OpcodeRow) : r ∈ opcodeTable ↔ r ∈ opcodeTable.dropLast ∨ r = trapUndefRow := by
  rw [opcodeTable_eq, List.mem_append, List.mem_singleton]; rfl

/-- R68, R70: a row before the last that shares words with TRAP_UNDEF fixes a defined vector. -/
theorem row_fixes_defined_vector : ∀ q ∈ opcodeTable.dropLast,
    q.value &&& trapUndefRow.mask = trapUndefRow.value &&& q.mask →
      q.mask.extractLsb' 0 8 = 0xFF#8 ∧ definedTrapVector (q.value.extractLsb' 0 8) = true := by decide

/-- R70: a well-formed instruction of the row TRAP_UNDEF has none of the six defined vectors. -/
theorem undefined_vector_of_mnemonic {i : Instr} (hwf : i.wf = true) (hm : i.mnemonic = trapUndefRow.mnemonic) :
    definedTrapVector ((encode i).extractLsb' 0 8) = false := by
  cases i with
  | trapUndef u v => rwa [encode, vector_encodeTrap, ← Bool.not_eq_true']
  | _ => simp [Instr.mnemonic, trapUndefRow] at hm

/-- R71: a row before the last that selects a word is the row of its instruction. -/
theorem mnemonic_of_selects {w : Word} {q : OpcodeRow} (hq : q ∈ opcodeTable.dropLast) (hqw : q.selects w = true) :
    q.mnemonic = (decode w).mnemonic := by
  obtain ⟨r, hr, hrm, hrw⟩ := row_of_word w
  rcases (mem_opcodeTable_iff r).1 hr with hr | rfl
  · rw [row_unique hq hr hqw hrw, hrm]
  · obtain ⟨hmask, hdef⟩ := row_fixes_defined_vector q hq (rows_agree_of_selects hqw hrw)
    have hundef := undefined_vector_of_mnemonic (decode_wf w) hrm.symm
    rw [encode_decode, vector_of_masked (beq_iff_eq.1 hqw) hmask, hdef] at hundef
    cases hundef

/-- R70: the decoder answers the first row of the table that selects the word. -/
theorem find_row_eq_decode (w : Word) :
    (opcodeTable.find? (fun r => r.selects w)).map OpcodeRow.mnemonic = some (decode w).mnemonic := by
  rw [opcodeTable_eq, List.find?_append]
  cases hf : opcodeTable.dropLast.find? (fun r => r.selects w) with
  | some q =>
    have hqw : q.selects w = true := by simpa using List.find?_some hf
    simp [mnemonic_of_selects (List.mem_of_find?_eq_some hf) hqw]
  | none =>
    -- only the last row is left for the instruction's own
    obtain ⟨r, hr, hrm, hrw⟩ := row_of_word w
    rcases (mem_opcodeTable_iff r).1 hr with hr | rfl
    · exact absurd hrw (List.find?_eq_none.1 hf r hr)
    · simp [hrw, hrm]

/-- Settles O4: rows before the last that select one word are equal, and such a row is that of the word's instruction. -/
theorem everyWordDecodesToItsTableRow : Obligations.EveryWordDecodesToItsTableRow :=
  ⟨fun _ _ hr _ hq => row_unique hr hq, find_row_eq_decode⟩

/-! ### Unused bits (R66) -/

/-- The string loop uses the instruction word for the fault record only. -/
theorem eraseInfo_emitString (f : Word → List Byte) (w w' : Word) (k : Nat) (a : Word) (s : State) :
    eraseInfo (State.emitString f w k a s) = eraseInfo (State.emitString f w' k a s) := by
  induction k generalizing a s with
  | zero =>
    unfold State.emitString
    split <;> rfl
  | succ k ih =>
    unfold State.emitString
    split
    · rfl
    · exact ih _ _

/-- Settles O5: no meaning takes an unused bit but for the fault record, whose word `eraseInfo` drops. -/
theorem unusedBitsChangeNoEffect : Obligations.UnusedBitsChangeNoEffect := by
  intro s
  refine ⟨?add, ?and, ?not, ?jmp, ?jsrr, ?traps, ?puts, ?putsp, ?undef, ?rti, ?res⟩
  case puts | putsp => exact fun _ _ => congrArg Host.Outcome.next (eraseInfo_emitString ..)
  case traps => exact fun _ _ => ⟨rfl, rfl, rfl, rfl⟩
  case undef => exact fun _ _ _ => rfl
  case rti | res => exact fun _ _ => rfl
  all_goals intros; rfl

/-! ### Words written out (R62, R71) -/

/-- Settles O1: the decoder run on the nine words. -/
theorem writtenOutWordsDecode : Obligations.WrittenOutWordsDecode := by
  unfold Obligations.WrittenOutWordsDecode
  decide

end Sys2Proof.Proofs
end

section
/-! Proofs of the statements of spec/40_fetch_decode.md: what a step is (R80 to R83), that only a blocked GETC or IN keeps it
from completing (R150, R177), that a stopped core stays as it is (R86), and the flag that `SetCC` sets (R84). -/

namespace Sys2Proof.Proofs

open Sys2Proof Sys2Proof.Machine Sys2Proof.Claims Sys2Proof.Laws

/-! ### A step completes, but for a blocked read (R81, R150, R177) -/

/-- R150, R177: an instruction completes, in a fault of the table too, but for GETC and IN with no character left. -/
theorem exec_next_or_blocked (i : Instr) (s : State) :
    (∃ t, exec i s = .next t) ∨
      (asksForChar i = true ∧ s.input = [] ∧ ∃ b, exec i s = .fault (.blockedOnInput b)) := by
  cases i with
  | trapGetc _ =>
    rcases execTrapGetc_cases s with ⟨hi, e⟩ | ⟨_, _, -, e⟩
    · exact .inr ⟨rfl, hi, _, e⟩
    · exact .inl ⟨_, e⟩
  | trapIn _ =>
    rcases execTrapIn_cases s with ⟨hi, e⟩ | ⟨_, _, -, e⟩
    · exact .inr ⟨rfl, hi, _, e⟩
    · exact .inl ⟨_, e⟩
  | br n z p off9 => exact .inl ⟨_, exec_br n z p off9 s⟩
  | _ => exact .inl ⟨_, rfl⟩

/-- Settles O48: a stopped core's step is answered, and a running core's is that of the fetched instruction. -/
theorem everyStepCompletesButABlockedRead : Obligations.EveryStepCompletesButABlockedRead := by
  intro s
  cases hrun : s.run with
  | false => exact .inl ⟨s, step_of_stopped hrun⟩
  | true =>
    rw [step_of_run hrun]
    exact (exec_next_or_blocked (decode s.fetch.1) s.fetch.2).imp_right fun h => ⟨rfl, h⟩

/-! ### The step of a running and of a stopped core (R80 to R83, R86) -/

/-- Settles O15: `run_of_stopped`, the induction on the number of steps, at every state. -/
theorem stoppedCoreKeepsAllState : Obligations.StoppedCoreKeepsAllState := fun _ k h => run_of_stopped h k

/-- Settles O14: the fetch is a `MemRead`, a plain one reads the cell, and the decoder inverts the encoder. -/
theorem stepRunsTheDecodedInstruction : Obligations.StepRunsTheDecodedInstruction := by
  intro s hrun
  have hplain : ¬ Polls s s.pc → step s = exec (decode (s.getCell s.pc)) (s.setPc (s.pc + 1#16)) := fun hp =>
    step_of_plain_fetch hrun ((not_polls_iff_pollsAt s s.pc).1 hp)
  refine ⟨step_of_run hrun, hplain, fun i hwf hp hcell => ?_⟩
  rw [hplain hp, hcell, decode_encode i hwf]

/-! ### The flag of a value (R84) -/

theorem flagOf_of_pos {v : Word} (h1 : 1 ≤ v.toNat) (h2 : v.toNat ≤ 0x7FFF) : flagOf v = .p := by
  rw [flagOf, if_neg (Nat.ne_of_gt h1), if_pos h2]

theorem flagOf_of_neg {v : Word} (h : 0x8000 ≤ v.toNat) : flagOf v = .n := by
  rw [flagOf, if_neg (by omega), if_neg (by omega)]

/-- Settles O7: the flag by the range of the value, and the frame of a write of `COND`. -/
theorem setCCFollowsTheSign : Obligations.SetCCFollowsTheSign := by
  intro s v
  rw [setCC_cond, condOf_eq_flagOf]
  refine ⟨?zero, flagOf_of_pos, flagOf_of_neg, fun _ _ => rfl, rfl, fun _ _ => rfl, ⟨rfl, rfl⟩, rfl, rfl, rfl⟩
  case zero =>
    rintro rfl
    rfl

end Sys2Proof.Proofs
end

section
/-! Proofs of the statements of spec/41_alu.md: the words of ADD, AND and NOT and their two forms (R65, R71), the result in DR
and its flag, and that nothing else is written (R90 to R94). The effect of all five is `writeResult_onlyResult`. -/

namespace Sys2Proof.Proofs

open Sys2Proof Sys2Proof.Machine Sys2Proof.Claims Sys2Proof.Laws

/-! ### A result and its flag (R22, R85) -/

theorem writeResult_onlyResult (s : State) (dr : Reg) (v : Word) : OnlyResult dr v s (s.writeResult dr v) := by
  rw [writeResult_eq]
  have hreg : ((s.setReg dr v).setCC v).getReg dr = v := getReg_setReg_same s dr v
  have hcond : ((s.setReg dr v).setCC v).cond = flagOf v := condOf_eq_flagOf v
  have hkept : RegsKept [dr] s ((s.setReg dr v).setCC v) := fun _ hq => getReg_setReg_ne s v (List.ne_of_not_mem_cons hq)
  exact ⟨hreg, hcond, hkept, rfl, fun _ _ => rfl, ⟨rfl, rfl⟩, rfl, rfl, rfl⟩

/-- R94: the complement by which the model computes, as the difference the rule gives. -/
theorem exec_not (dr sr : Reg) (u : BitVec 6) (s : State) :
    exec (.not dr sr u) s = .next (s.writeResult dr (0xFFFF#16 - s.getReg sr)) := by
  have hsub : 0xFFFF#16 - s.getReg sr = ~~~ s.getReg sr := BitVec.allOnes_sub_eq_not _
  rw [hsub]
  rfl

/-! ### The words of ADD and AND (R65, R71) -/

/-- The mask of ADD and AND covers the opcode and the form bit. -/
theorem opcode_form_of_masked {w v : Word} (h : w &&& 0xF020#16 = v) : opcodeOf w = opcodeOf v ∧ w[5] = v[5] :=
  ⟨opcodeOf_of_masked h rfl, bit_of_masked h (by decide) rfl⟩

theorem decode_add_of_masked {w : Word} (h : w &&& 0xF020#16 = 0x1000#16) :
    decode w = .add (regAt w 9) (regAt w 6) (regAt w 0) (w.extractLsb' 3 2) := by
  obtain ⟨hop, hform⟩ : opcodeOf w = 0x1#4 ∧ w[5] = false := opcode_form_of_masked h
  simp [decode, hop, hform]

theorem decode_addi_of_masked {w : Word} (h : w &&& 0xF020#16 = 0x1020#16) :
    decode w = .addi (regAt w 9) (regAt w 6) (w.extractLsb' 0 5) := by
  obtain ⟨hop, hform⟩ : opcodeOf w = 0x1#4 ∧ w[5] = true := opcode_form_of_masked h
  simp [decode, hop, hform]

theorem decode_and_of_masked {w : Word} (h : w &&& 0xF020#16 = 0x5000#16) :
    decode w = .and (regAt w 9) (regAt w 6) (regAt w 0) (w.extractLsb' 3 2) := by
  obtain ⟨hop, hform⟩ : opcodeOf w = 0x5#4 ∧ w[5] = false := opcode_form_of_masked h
  simp [decode, hop, hform]

theorem decode_andi_of_masked {w : Word} (h : w &&& 0xF020#16 = 0x5020#16) :
    decode w = .andi (regAt w 9) (regAt w 6) (w.extractLsb' 0 5) := by
  obtain ⟨hop, hform⟩ : opcodeOf w = 0x5#4 ∧ w[5] = true := opcode_form_of_masked h
  simp [decode, hop, hform]

/-! ### The five instructions (R90 to R94) -/

/-- Settles O17: the row fixes opcode and form bit, and `writeResult` is the whole effect. -/
theorem addRegisterFormWritesTheSum : Obligations.AddRegisterFormWritesTheSum :=
  ⟨fun _ => decode_add_of_masked, fun _ _ _ _ s => ⟨_, rfl, writeResult_onlyResult s _ _⟩⟩

/-- Settles O18: the two forms differ in where the second operand comes from only. -/
theorem addImmediateFormWritesTheSum : Obligations.AddImmediateFormWritesTheSum := by
  refine ⟨fun _ => decode_addi_of_masked, fun _ _ _ s => ⟨_, rfl, writeResult_onlyResult s _ _⟩, ?agree⟩
  case agree =>
    intro dr sr1 sr2 u imm5 s h
    simp only [exec, execAddi, execAdd, h]

/-- Settles O19: by the row's opcode and form bit and by `writeResult`, as for ADD. -/
theorem andRegisterFormWritesTheConjunction : Obligations.AndRegisterFormWritesTheConjunction :=
  ⟨fun _ => decode_and_of_masked, fun _ _ _ _ s => ⟨_, rfl, writeResult_onlyResult s _ _⟩⟩

/-- Settles O20: the two forms differ in where the second operand comes from only. -/
theorem andImmediateFormWritesTheConjunction : Obligations.AndImmediateFormWritesTheConjunction := by
  refine ⟨fun _ => decode_andi_of_masked, fun _ _ _ s => ⟨_, rfl, writeResult_onlyResult s _ _⟩, ?agree⟩
  case agree =>
    intro dr sr1 sr2 u imm5 s h
    simp only [exec, execAndi, execAnd, h]

/-- Settles O21: the opcode alone selects the row, and the result is the difference of `exec_not`. -/
theorem notWritesTheComplement : Obligations.NotWritesTheComplement := by
  refine ⟨fun w h => ?word, fun dr sr u s => ⟨_, exec_not dr sr u s, writeResult_onlyResult s dr _⟩⟩
  case word =>
    have hop : opcodeOf w = 0x9#4 := opcodeOf_of_masked h rfl
    simp [decode, hop]

end Sys2Proof.Proofs
end

section
/-! Proofs of the statements of spec/42_load_store.md: the words of LD, ST, LDR, STR, LDI, STI and LEA (R71), what they write, and
that nothing else changes but what a poll changes (R100 to R106). The three loads end in `loadResult` on the pair that their last
read gave, the three stores in `setCell`, LEA in `writeResult`; where no read polls, that pair is the cell and the old state. -/

namespace Sys2Proof.Proofs

open Sys2Proof Sys2Proof.Machine Sys2Proof.Claims Sys2Proof.Laws

/-! ### The words of the seven rows (R71) -/

theorem decode_ld_of_masked {w : Word} (h : w &&& 0xF000#16 = 0x2000#16) :
    decode w = .ld (regAt w 9) (w.extractLsb' 0 9) := by
  have hop : opcodeOf w = 0x2#4 := opcodeOf_of_masked h rfl
  simp [decode, hop]

theorem decode_st_of_masked {w : Word} (h : w &&& 0xF000#16 = 0x3000#16) :
    decode w = .st (regAt w 9) (w.extractLsb' 0 9) := by
  have hop : opcodeOf w = 0x3#4 := opcodeOf_of_masked h rfl
  simp [decode, hop]

theorem decode_ldr_of_masked {w : Word} (h : w &&& 0xF000#16 = 0x6000#16) :
    decode w = .ldr (regAt w 9) (regAt w 6) (w.extractLsb' 0 6) := by
  have hop : opcodeOf w = 0x6#4 := opcodeOf_of_masked h rfl
  simp [decode, hop]

theorem decode_str_of_masked {w : Word} (h : w &&& 0xF000#16 = 0x7000#16) :
    decode w = .str (regAt w 9) (regAt w 6) (w.extractLsb' 0 6) := by
  have hop : opcodeOf w = 0x7#4 := opcodeOf_of_masked h rfl
  simp [decode, hop]

theorem decode_ldi_of_masked {w : Word} (h : w &&& 0xF000#16 = 0xA000#16) :
    decode w = .ldi (regAt w 9) (w.extractLsb' 0 9) := by
  have hop : opcodeOf w = 0xA#4 := opcodeOf_of_masked h rfl
  simp [decode, hop]

theorem decode_sti_of_masked {w : Word} (h : w &&& 0xF000#16 = 0xB000#16) :
    decode w = .sti (regAt w 9) (w.extractLsb' 0 9) := by
  have hop : opcodeOf w = 0xB#4 := opcodeOf_of_masked h rfl
  simp [decode, hop]

theorem decode_lea_of_masked {w : Word} (h : w &&& 0xF000#16 = 0xE000#16) :
    decode w = .lea (regAt w 9) (w.extractLsb' 0 9) := by
  have hop : opcodeOf w = 0xE#4 := opcodeOf_of_masked h rfl
  simp [decode, hop]

/-! ### Reads before the effect (R44) -/

theorem memRead_of_not_polls {s : State} {a : Word} (h : ¬ Polls s a) : s.memRead a = (s.getCell a, s) :=
  memRead_plain ((not_polls_iff_pollsAt s a).1 h)

/-- R104: the two reads of LDI when neither polls. -/
theorem memRead_memRead_of_not_polls {s : State} {a : Word} (h : ¬ Polls s a) (hp : ¬ Polls s (s.getCell a)) :
    (s.memRead a).2.memRead (s.memRead a).1 = (s.getCell (s.getCell a), s) := by
  rw [memRead_of_not_polls h]
  exact memRead_of_not_polls hp

theorem readsTo_console {s u : State} (h : ReadsTo s u) : u.console = s.console := by
  rw [h.frame]

theorem readsTo_controlKept {s u : State} (h : ReadsTo s u) : ControlKept s u := by
  rw [h.frame]
  exact ⟨rfl, rfl, rfl⟩

/-! ### The end of a load (R100, R102, R104) -/

/-- What LD, LDR and LDI make of their last read, `r`: DR and `COND` take the value, in the state the read left. -/
def loadResult (dr : Reg) (r : Word × State) : State := r.2.writeResult dr r.1

theorem exec_ld (dr : Reg) (off9 : BitVec 9) (s : State) :
    exec (.ld dr off9) s = .next (loadResult dr (s.memRead (s.pc + sext off9))) := rfl

theorem exec_ldr (dr baser : Reg) (off6 : BitVec 6) (s : State) :
    exec (.ldr dr baser off6) s = .next (loadResult dr (s.memRead (s.getReg baser + sext off6))) := rfl

theorem exec_ldi (dr : Reg) (off9 : BitVec 9) (s : State) :
    exec (.ldi dr off9) s = .next (loadResult dr
      ((s.memRead (s.pc + sext off9)).2.memRead (s.memRead (s.pc + sext off9)).1)) := rfl

/-- After any reads, the end of a load writes DR and `COND` only. -/
theorem loadResult_onlyLoaded {s : State} {r : Word × State} (hr : ReadsTo s r.2) (dr : Reg) :
    OnlyLoaded dr r.1 s r.2 (loadResult dr r) := by
  obtain ⟨hval, hcond, hregs, hpc, hcells, ⟨hinput, hconsole⟩, hrun, hfault, hcfg⟩ := writeResult_onlyResult r.2 dr r.1
  obtain ⟨rrun, rfault, rcfg⟩ := readsTo_controlKept hr
  have hreads : CoreKept [dr] s r.2 := .of_reads hr
  exact ⟨hval, hcond, fun q hq => (hregs q hq).trans (hreads.regs q hq), hpc.trans hreads.pc, hcells, hinput,
    hconsole.trans (readsTo_console hr), hrun.trans rrun, hfault.trans rfault, hcfg.trans rcfg⟩

/-- A load whose reads gave `v` and changed nothing. -/
theorem loadResult_plain {s : State} {r : Word × State} {v : Word} (hr : r = (v, s)) (dr : Reg) :
    (loadResult dr r).getReg dr = v ∧ CellsKept [] s (loadResult dr r) ∧ (loadResult dr r).input = s.input := by
  subst hr
  obtain ⟨hval, -, -, -, hcells, hinput, -⟩ := loadResult_onlyLoaded (r := (v, s)) (.refl s) dr
  exact ⟨hval, hcells, hinput⟩

/-- Settles O22: one read at the address, then the end of a load. -/
theorem ldLoadsFromThePcRelativeCell : Obligations.LdLoadsFromThePcRelativeCell := by
  refine ⟨fun _ => decode_ld_of_masked, fun dr off9 s => ⟨_, exec_ld dr off9 s, ?loaded, ?cells, fun hp => ?plain⟩⟩
  case loaded => exact loadResult_onlyLoaded (.one s _) dr
  case cells => exact (exec_cellsAfterReads (exec_ld dr off9 s)).cellsKept
  case plain => exact loadResult_plain (memRead_of_not_polls hp) dr

/-- Settles O24: as LD, from the address of the base read before DR is written. -/
theorem ldrLoadsFromBasePlusOffset : Obligations.LdrLoadsFromBasePlusOffset := by
  refine ⟨fun _ => decode_ldr_of_masked,
    fun dr baser off6 s => ⟨_, exec_ldr dr baser off6 s, ?loaded, ?cells, fun hp => ?plain⟩⟩
  case loaded => exact loadResult_onlyLoaded (.one s _) dr
  case cells => exact (exec_cellsAfterReads (exec_ldr dr baser off6 s)).cellsKept
  case plain => exact loadResult_plain (memRead_of_not_polls hp) dr

/-- Settles O26: the read of the pointer, the read through it, then the end of a load. -/
theorem ldiLoadsThroughThePointerCell : Obligations.LdiLoadsThroughThePointerCell := by
  refine ⟨fun _ => decode_ldi_of_masked, fun dr off9 s => ⟨_, exec_ldi dr off9 s, ?loaded, ?cells, fun hp hq => ?plain⟩⟩
  case loaded => exact loadResult_onlyLoaded (.step (s.pc + sext off9) (.one _ _)) dr
  case cells => exact (exec_cellsAfterReads (exec_ldi dr off9 s)).cellsKept
  case plain => exact loadResult_plain (memRead_memRead_of_not_polls hp hq) dr

/-! ### Stores (R101, R103, R105) -/

theorem setCell_onlyStored (s : State) (a v : Word) : OnlyStored a v s (s.setCell a v) :=
  ⟨getCell_setCell_same s a v, setCell_cellsKept s a v, fun _ _ => rfl, rfl, rfl, ⟨rfl, rfl⟩, rfl, rfl, rfl⟩

/-- R105: the read of the pointer leaves SR as it is, so the value stored is that of the state before it. -/
theorem exec_sti (sr : Reg) (off9 : BitVec 9) (s : State) :
    exec (.sti sr off9) s = .next
      ((s.memRead (s.pc + sext off9)).2.setCell (s.memRead (s.pc + sext off9)).1 (s.getReg sr)) := by
  rw [← afterRead_getReg s (s.pc + sext off9) sr]
  rfl

/-- Settles O27: the effect of the store, on the state that the read of the pointer left. -/
theorem stiStoresThroughThePointerCell : Obligations.StiStoresThroughThePointerCell := by
  refine ⟨fun _ => decode_sti_of_masked, fun sr off9 s => ⟨_, exec_sti sr off9 s, ?memory, ?rest⟩⟩
  case memory =>
    exact ⟨getCell_setCell_same _ _ _, setCell_cellsKept _ _ _, (exec_cellsAfterReads (exec_sti sr off9 s)).cellsKept, rfl⟩
  case rest =>
    have hr : ReadsTo s (s.memRead (s.pc + sext off9)).2 := .one s _
    obtain ⟨hregs, hpc, hcond, -, -⟩ := CoreKept.of_reads (rs := []) hr
    have hconsole := readsTo_console hr
    have hcontrol := readsTo_controlKept hr
    refine ⟨hregs, hcond, hpc, hconsole, hcontrol, fun hp => ?_⟩
    rw [memRead_of_not_polls hp]
    exact setCell_onlyStored s _ _

/-- Settles O23: the store at the address is the whole effect. -/
theorem stStoresToThePcRelativeCell : Obligations.StStoresToThePcRelativeCell :=
  ⟨fun _ => decode_st_of_masked, fun _ _ s => ⟨_, rfl, setCell_onlyStored s _ _⟩⟩

/-- Settles O25: as ST, at the address from the base. -/
theorem strStoresToBasePlusOffset : Obligations.StrStoresToBasePlusOffset :=
  ⟨fun _ => decode_str_of_masked, fun _ _ _ s => ⟨_, rfl, setCell_onlyStored s _ _⟩⟩

/-! ### LEA (R58, R106) -/

/-- Settles O28: the address is a computed result, as that of ADD, and no memory is read for it. -/
theorem leaWritesTheAddressAndReadsNoMemory : Obligations.LeaWritesTheAddressAndReadsNoMemory :=
  ⟨fun _ => decode_lea_of_masked, fun _ _ s => ⟨_, rfl, writeResult_onlyResult s _ _⟩⟩

end Sys2Proof.Proofs
end

section
/-! Proofs of the statements of spec/43_control.md: the words of BR, JMP, JSR and JSRR (R71), when a branch is taken (R120), what
a transfer of control and a call change (R121 to R123), and the return through R7 (R124). A jump is `setPc` alone, a call
`setPc` after the write of R7. -/

namespace Sys2Proof.Proofs

open Sys2Proof Sys2Proof.Machine Sys2Proof.Claims Sys2Proof.Laws

/-! ### The words of the four rows (R65, R71) -/

theorem decode_br_of_masked {w : Word} (h : w &&& 0xF000#16 = 0x0000#16) :
    decode w = .br w[11] w[10] w[9] (w.extractLsb' 0 9) := by
  have hop : opcodeOf w = 0x0#4 := opcodeOf_of_masked h rfl
  simp [decode, hop]

theorem decode_jmp_of_masked {w : Word} (h : w &&& 0xF000#16 = 0xC000#16) :
    decode w = .jmp (w.extractLsb' 9 3) (regAt w 6) (w.extractLsb' 0 6) := by
  have hop : opcodeOf w = 0xC#4 := opcodeOf_of_masked h rfl
  simp [decode, hop]

/-- The mask of JSR and JSRR covers the opcode and the form bit. -/
theorem opcode_callForm_of_masked {w v : Word} (h : w &&& 0xF800#16 = v) :
    opcodeOf w = opcodeOf v ∧ w[11] = v[11] :=
  ⟨opcodeOf_of_masked h rfl, bit_of_masked h (by decide) rfl⟩

theorem decode_jsr_of_masked {w : Word} (h : w &&& 0xF800#16 = 0x4800#16) :
    decode w = .jsr (w.extractLsb' 0 11) := by
  obtain ⟨hop, hform⟩ : opcodeOf w = 0x4#4 ∧ w[11] = true := opcode_callForm_of_masked h
  simp [decode, hop, hform]

theorem decode_jsrr_of_masked {w : Word} (h : w &&& 0xF800#16 = 0x4000#16) :
    decode w = .jsrr (w.extractLsb' 9 2) (regAt w 6) (w.extractLsb' 0 6) := by
  obtain ⟨hop, hform⟩ : opcodeOf w = 0x4#4 ∧ w[11] = false := opcode_callForm_of_masked h
  simp [decode, hop, hform]

/-! ### When a branch is taken (R27, R120) -/

/-- R120, D2: the condition field meets the one-hot `COND` exactly at the flag that is set. -/
theorem branchTaken_iff (n z p : Bool) (c : Cond) :
    branchTaken n z p c = true ↔ (n = true ∧ c = .n) ∨ (z = true ∧ c = .z) ∨ (p = true ∧ c = .p) := by
  cases c <;> revert n z p <;> decide

/-! ### A jump and a call -/

theorem setPc_onlyPc (s : State) (pc : Word) : OnlyPc pc s (s.setPc pc) :=
  ⟨rfl, fun _ _ => rfl, rfl, fun _ _ => rfl, ⟨rfl, rfl⟩, rfl, rfl, rfl⟩

theorem exec_jmp (h : BitVec 3) (baser : Reg) (l : BitVec 6) (s : State) :
    exec (.jmp h baser l) s = .next (s.setPc (s.getReg baser)) := rfl

/-- What JSR and JSRR make of their target: R7 takes the return address and `PC` the target. -/
def callTo (s : State) (pc : Word) : State := (s.setReg 7 s.pc).setPc pc

theorem callTo_onlyCall (s : State) (pc : Word) : OnlyCall pc s (callTo s pc) :=
  ⟨getReg_setReg_same s 7 s.pc, rfl, fun _ hq => getReg_setReg_ne s s.pc (List.ne_of_not_mem_cons hq), rfl,
    fun _ _ => rfl, ⟨rfl, rfl⟩, rfl, rfl, rfl⟩

theorem exec_jsr (off11 : BitVec 11) (s : State) :
    exec (.jsr off11) s = .next (callTo s (s.pc + sext off11)) := rfl

/-- R123, D10: the base is read after R7 is written. -/
theorem exec_jsrr (h : BitVec 2) (baser : Reg) (l : BitVec 6) (s : State) :
    exec (.jsrr h baser l) s = .next (callTo s (if baser = 7 then s.pc else s.getReg baser)) := by
  rw [← getReg_setReg]
  rfl

/-! ### The four instructions (R120 to R123) -/

/-- Settles O29: the test of the one-hot `COND` is the test of the named flags, and `setPc` is the whole effect. -/
theorem brIsTakenWhenANamedFlagIsSet : Obligations.BrIsTakenWhenANamedFlagIsSet := by
  refine ⟨fun _ => decode_br_of_masked, fun n z p off9 s => ⟨_, exec_br n z p off9 s, fun h => ?taken, fun h => ?kept⟩⟩
  case taken =>
    rw [if_pos ((branchTaken_iff n z p s.cond).2 h)]
    exact setPc_onlyPc s _
  case kept =>
    rw [if_neg (mt (branchTaken_iff n z p s.cond).1 h)]
    exact setPc_onlyPc s _

/-- Settles O30: `setPc` is the whole effect. -/
theorem jmpGoesToTheBaseRegister : Obligations.JmpGoesToTheBaseRegister :=
  ⟨fun _ => decode_jmp_of_masked, fun h baser l s => ⟨_, exec_jmp h baser l s, setPc_onlyPc s _⟩⟩

/-- Settles O31: the target is of the `PC` that the write of R7 leaves alone. -/
theorem jsrLinksAndGoesPcRelative : Obligations.JsrLinksAndGoesPcRelative :=
  ⟨fun _ => decode_jsr_of_masked, fun off11 s => ⟨_, exec_jsr off11 s, callTo_onlyCall s _⟩⟩

/-- Settles O32: the base read after the write of R7 is the return address for R7 itself, and the old value for any other. -/
theorem jsrrLinksThenReadsTheBase : Obligations.JsrrLinksThenReadsTheBase := by
  refine ⟨fun _ => decode_jsrr_of_masked, fun h baser l s hne => ⟨_, exec_jsrr h baser l s, ?other⟩,
    fun h l s => ⟨_, exec_jsrr h 7 l s, ?seven⟩⟩
  case other =>
    rw [if_neg hne]
    exact callTo_onlyCall s _
  case seven => exact callTo_onlyCall s _

/-! ### The return (R124, R130) -/

/-- R133, R135: the string loop writes no register, so R7 is the one that the common part of the TRAP wrote. -/
theorem getReg_seven_of_string {s v : State} (h : ReadsTo s.enterTrap v) : v.getReg 7 = s.pc :=
  ((CoreKept.of_reads (rs := []) h).regs 7 List.not_mem_nil).trans (enterTrap_getReg_seven s)

/-- R130: the character that GETC and IN deliver goes to R0. -/
theorem deliverChar_getReg_seven (s : State) (c : Byte) : (s.deliverChar c).getReg 7 = s.getReg 7 := by
  rw [deliverChar_eq, setCC_getReg, getReg_setReg_ne _ _ (by decide)]

/-- R124, R130: a linking instruction that completes leaves the return address in R7, however it ends. -/
theorem exec_getReg_seven_of_linksR7 {i : Instr} {s t : State} (hl : linksR7 i = true) (h : exec i s = .next t) :
    t.getReg 7 = s.pc := by
  cases i with
  | jsr _ | jsrr _ _ _ | trapOut _ | trapHalt _ | trapUndef _ _ =>
    cases h
    exact getReg_setReg_same s 7 s.pc
  | trapGetc _ =>
    rcases execTrapGetc_cases s with ⟨-, e⟩ | ⟨k, rest, -, e⟩ <;> cases e.symm.trans h
    exact (deliverChar_getReg_seven _ _).trans (enterTrap_getReg_seven s)
  | trapIn _ =>
    rcases execTrapIn_cases s with ⟨-, e⟩ | ⟨k, rest, -, e⟩ <;> cases e.symm.trans h
    exact (deliverChar_getReg_seven _ _).trans (enterTrap_getReg_seven s)
  | trapPuts unused =>
    obtain ⟨bs, v, hr, e⟩ := execTrapPuts_cases s unused
    have hv : v.getReg 7 = s.pc := getReg_seven_of_string hr
    rcases e with e | e <;> cases e.symm.trans h <;> exact hv
  | trapPutsp unused =>
    obtain ⟨bs, v, hr, e⟩ := execTrapPutsp_cases s unused
    have hv : v.getReg 7 = s.pc := getReg_seven_of_string hr
    rcases e with e | e <;> cases e.symm.trans h <;> exact hv
  | _ => cases hl

/-- Settles O33: the link of `exec_getReg_seven_of_linksR7`, and JMP through the R7 that still holds it. -/
theorem jmpThroughR7ReturnsAfterTheCall : Obligations.JmpThroughR7ReturnsAfterTheCall := by
  intro i s t hl hexec
  have hlink : t.getReg 7 = s.pc := exec_getReg_seven_of_linksR7 hl hexec
  refine ⟨hlink, fun h l u hu => ⟨_, exec_jmp h 7 l u, ?_⟩⟩
  rw [hu, hlink]
  exact setPc_onlyPc u s.pc

end Sys2Proof.Proofs
end

section
/-! Proofs of the statements of spec/44_trap_system.md: the words of the TRAP rows, RTI and RES (R71), and what the six routines
(R131 to R136), an undefined vector (R137), RTI and RES (R138, R139) change. Each word is the encoding of its instruction, so
`decode_encode` decodes it. GETC and IN both end in `received`, PUTS and PUTSP in `printString`: that loop is the reads of
`readRun`, then the bytes of the cells read, because a read sees neither the registers nor the console. -/

namespace Sys2Proof.Proofs

open Sys2Proof Sys2Proof.Machine Sys2Proof.Claims Sys2Proof.Laws

/-! ### The words of the nine rows (R68, R71) -/

theorem decode_of_encode_eq {i : Instr} {w : Word} (h : encode i = w) (hwf : i.wf = true) : decode w = i :=
  h ▸ decode_encode i hwf

/-- R71: the mask of the six routines covers the opcode and the vector, so the word is a TRAP with the row's vector. -/
theorem encodeTrap_of_masked {w m : Word} {v : BitVec 8} (h : w &&& 0xF0FF#16 = m) (hop : opcodeOf m = 0xF#4)
    (hv : m.extractLsb' 0 8 = v) : encodeTrap (w.extractLsb' 8 4) v = w :=
  encodeTrap_fields ((opcodeOf_of_masked h rfl).trans hop) ((vector_of_masked h rfl).trans hv)

theorem decode_trapGetc_of_masked {w : Word} (h : w &&& 0xF0FF#16 = 0xF020#16) :
    decode w = .trapGetc (w.extractLsb' 8 4) := decode_of_encode_eq (encodeTrap_of_masked h rfl rfl) rfl

theorem decode_trapOut_of_masked {w : Word} (h : w &&& 0xF0FF#16 = 0xF021#16) :
    decode w = .trapOut (w.extractLsb' 8 4) := decode_of_encode_eq (encodeTrap_of_masked h rfl rfl) rfl

theorem decode_trapPuts_of_masked {w : Word} (h : w &&& 0xF0FF#16 = 0xF022#16) :
    decode w = .trapPuts (w.extractLsb' 8 4) := decode_of_encode_eq (encodeTrap_of_masked h rfl rfl) rfl

theorem decode_trapIn_of_masked {w : Word} (h : w &&& 0xF0FF#16 = 0xF023#16) :
    decode w = .trapIn (w.extractLsb' 8 4) := decode_of_encode_eq (encodeTrap_of_masked h rfl rfl) rfl

theorem decode_trapPutsp_of_masked {w : Word} (h : w &&& 0xF0FF#16 = 0xF024#16) :
    decode w = .trapPutsp (w.extractLsb' 8 4) := decode_of_encode_eq (encodeTrap_of_masked h rfl rfl) rfl

theorem decode_trapHalt_of_masked {w : Word} (h : w &&& 0xF0FF#16 = 0xF025#16) :
    decode w = .trapHalt (w.extractLsb' 8 4) := decode_of_encode_eq (encodeTrap_of_masked h rfl rfl) rfl

/-! ### The common part of a TRAP (R21, R130) -/

theorem exec_link_and_regsKept {i : Instr} {s t : State} (hl : linksR7 i = true) (h : exec i s = .next t) :
    t.getReg 7 = s.pc ∧ RegsKept (writtenRegs i) s t :=
  ⟨exec_getReg_seven_of_linksR7 hl h, (exec_coreEffect h).regs⟩

/-! ### Reading a character (R131, R134) -/

/-- What GETC and IN make of the character `k` before `rest`, when the console has become `out`. -/
def received (s : State) (k : Keystroke) (rest : List Keystroke) (out : List Byte) : State :=
  ({ s.enterTrap with input := rest, console := out } : State).deliverChar k.char

theorem exec_trapGetc_of_cons (u : BitVec 4) {s : State} {k : Keystroke} {rest : List Keystroke}
    (h : s.input = k :: rest) : exec (.trapGetc u) s = .next (received s k rest s.console) := by
  simp only [exec, execTrapGetc, State.readChar, enterTrap_input, h]
  rfl

theorem exec_trapIn_of_cons (u : BitVec 4) {s : State} {k : Keystroke} {rest : List Keystroke}
    (h : s.input = k :: rest) :
    exec (.trapIn u) s = .next (received s k rest (s.console ++ s.cfg.inPrompt ++ [k.char])) := by
  simp only [exec, execTrapIn, State.readChar, consoleWriteAll_input, enterTrap_input, h]
  rfl

/-- R131: an instruction that asks for a character does not complete without one. -/
theorem exec_ne_next_of_input_nil {i : Instr} {s : State} (ha : asksForChar i = true) (hn : s.input = []) (t : State) :
    exec i s ≠ .next t := by
  intro h
  obtain ⟨k, hk⟩ := (exec_streamEffect h).input_asked ha
  cases hn.symm.trans hk

/-- R131, R134: the character is a result in R0, after the common part of the TRAP. -/
theorem received_onlyResult (s : State) (k : Keystroke) (rest : List Keystroke) (out : List Byte) :
    OnlyResult 0 (k.char.setWidth 16) { s.enterTrap with input := rest, console := out } (received s k rest out) :=
  writeResult_onlyResult _ 0 _

/-- Settles O34: the character is a result in R0, and without one the instruction does not complete. -/
theorem getcReadsOneCharacterIntoR0 : Obligations.GetcReadsOneCharacterIntoR0 := by
  refine ⟨fun _ => decode_trapGetc_of_masked, fun u s k rest h => ?completes, fun _ _ => exec_ne_next_of_input_nil rfl⟩
  have hexec := exec_trapGetc_of_cons u h
  obtain ⟨hlink, hregs⟩ := exec_link_and_regsKept rfl hexec
  obtain ⟨hval, hcond, -, hpc, hcells, ⟨hinput, hconsole⟩, hcontrol⟩ := received_onlyResult s k rest s.console
  exact ⟨_, hexec, hlink, hval, hcond, hinput, hregs, hpc, hcells, hconsole, hcontrol⟩

/-- Settles O37: as GETC, with the prompt and the echo on the console. -/
theorem inPromptsReadsAndEchoes : Obligations.InPromptsReadsAndEchoes := by
  refine ⟨fun _ => decode_trapIn_of_masked, fun u s k rest h => ?completes⟩
  have hexec := exec_trapIn_of_cons u h
  obtain ⟨hlink, hregs⟩ := exec_link_and_regsKept rfl hexec
  obtain ⟨hval, hcond, -, hpc, hcells, ⟨hinput, hconsole⟩, hcontrol⟩ := received_onlyResult s k rest _
  exact ⟨_, hexec, hconsole, hlink, hval, hcond, hinput, hregs, hpc, hcells, hcontrol⟩

/-! ### Consecutive reads (R133, R135) -/

/-- `g` changes nothing that a read sees or changes. -/
def UnseenByReads (g : State → State) : Prop := ∀ s a, (g s).memRead a = ((s.memRead a).1, g (s.memRead a).2)

theorem consoleWriteAll_unseenByReads (bs : List Byte) : UnseenByReads (·.consoleWriteAll bs) := by
  intro s a
  rw [State.memRead, afterRead_consoleWriteAll]
  rfl

theorem afterRead_setReg (s : State) (r : Reg) (v a : Word) : (s.setReg r v).afterRead a = (s.afterRead a).setReg r v := by
  have hk : (s.setReg r v).pollsAt a = s.pollsAt a := rfl
  rcases afterRead_cases s a with ⟨h, e⟩ | ⟨h, e⟩
  · rw [e, afterRead_plain _ (hk.trans h)]
  · rw [e, State.afterRead, if_pos (hk.trans h)]
    rcases pollKeyboard_cases s with ⟨c, rest, hi, e⟩ | ⟨hq, e⟩
    · rw [e, pollKeyboard_ready (s.setReg r v) hi]
      rfl
    · rw [e, pollKeyboard_quiet (s.setReg r v) hq, passQuietPoll_eq,
        passQuietPoll_input_congr (s := s.setReg r v) (t := s) rfl]
      rfl

theorem setReg_unseenByReads (r : Reg) (v : Word) : UnseenByReads (·.setReg r v) := by
  intro s a
  rw [State.memRead, afterRead_setReg]
  rfl

theorem readRun_of_unseenByReads {g : State → State} (hg : UnseenByReads g) (n : Nat) (a : Word) (s : State) :
    readRun n a (g s) = ((readRun n a s).1, g (readRun n a s).2) := by
  induction n generalizing a s with
  | zero => rfl
  | succ n ih => simp only [readRun, hg s a, ih]

theorem readRun_length (n : Nat) (a : Word) (s : State) : (readRun n a s).1.length = n := by
  induction n generalizing a s with
  | zero => rfl
  | succ n ih => exact congrArg (· + 1) (ih _ _)

theorem readsTo_readRun (n : Nat) (a : Word) (s : State) : ReadsTo s (readRun n a s).2 := by
  induction n generalizing a s with
  | zero => exact .refl s
  | succ n ih => exact .step a (ih _ _)

/-- Reads none of which polls leave the state. -/
theorem readRun_snd_of_not_polls {n : Nat} {a : Word} {s : State} (h : ∀ j < n, ¬ Polls s (a + BitVec.ofNat 16 j)) :
    (readRun n a s).2 = s := by
  induction n generalizing a with
  | zero => rfl
  | succ n ih =>
    have ha : ¬ Polls s a := by simpa using h 0 n.succ_pos
    have hnext : ∀ j < n, ¬ Polls s (a + 1#16 + BitVec.ofNat 16 j) := fun j hj => by
      rw [BitVec.add_assoc, ← BitVec.ofNat_add, Nat.add_comm]
      exact h (j + 1) (Nat.succ_lt_succ hj)
    rw [readRun, memRead_of_not_polls ha]
    exact ih hnext

/-! ### The string loop (R133, R135) -/

theorem emitString_of_zero_cell (f : Word → List Byte) (w : Word) (k : Nat) {a : Word} {s : State}
    (h : (s.memRead a).1 = 0#16) : s.emitString f w k a = (s.memRead a).2 := by
  cases k <;> exact if_pos h

theorem emitString_of_last_cell (f : Word → List Byte) (w : Word) {a : Word} {s : State} (h : (s.memRead a).1 ≠ 0#16) :
    s.emitString f w 0 a = ((s.memRead a).2.consoleWriteAll (f (s.memRead a).1)).raiseFault .stringOverrun w := if_neg h

theorem emitString_of_cell (f : Word → List Byte) (w : Word) (k : Nat) {a : Word} {s : State}
    (h : (s.memRead a).1 ≠ 0#16) : s.emitString f w (k + 1) a =
      ((s.memRead a).2.consoleWriteAll (f (s.memRead a).1)).emitString f w k (a + 1#16) := if_neg h

/-- Bytes written before some reads are as bytes written after them. -/
theorem readRun_consoleWriteAll (bs : List Byte) (n : Nat) (a : Word) (s : State) :
    readRun n a (s.consoleWriteAll bs) = ((readRun n a s).1, (readRun n a s).2.consoleWriteAll bs) :=
  readRun_of_unseenByReads (consoleWriteAll_unseenByReads bs) n a s

/-- R133, R135: the loop up to a zero cell, when no more than `k` cells come before it. -/
theorem emitString_of_readRun (f : Word → List Byte) (w : Word) {cs : List Word} {k : Nat} {a : Word} {s : State}
    (hk : cs.length ≤ k) (hr : (readRun (cs.length + 1) a s).1 = cs ++ [0#16]) (hz : 0#16 ∉ cs) :
    s.emitString f w k a = (readRun (cs.length + 1) a s).2.consoleWriteAll (cs.flatMap f) := by
  induction cs generalizing k a s with
  | nil =>
    have h0 : (s.memRead a).1 = 0#16 := List.head_eq_of_cons_eq hr
    exact (emitString_of_zero_cell f w k h0).trans (consoleWriteAll_nil _).symm
  | cons c cs ih =>
    obtain ⟨hc, hrest⟩ : (s.memRead a).1 = c ∧ (readRun (cs.length + 1) (a + 1#16) (s.memRead a).2).1 = cs ++ [0#16] :=
      List.cons_eq_cons.1 hr
    obtain ⟨hc0, hz'⟩ := List.ne_and_not_mem_of_not_mem_cons hz
    obtain ⟨k, rfl⟩ : ∃ m, k = m + 1 := Nat.exists_eq_add_one_of_ne_zero (Nat.ne_zero_of_lt hk)
    have hcell : (s.memRead a).1 ≠ 0#16 := hc ▸ hc0.symm
    rw [emitString_of_cell f w k hcell, ih (Nat.le_of_succ_le_succ hk) (by rwa [readRun_consoleWriteAll]) hz',
      readRun_consoleWriteAll, consoleWriteAll_append, hc]
    rfl

/-- D11: the loop when none of the cells up to the last one is zero. -/
theorem emitString_of_readRun_overrun (f : Word → List Byte) (w : Word) {k : Nat} {a : Word} {s : State}
    (hz : 0#16 ∉ (readRun (k + 1) a s).1) : s.emitString f w k a =
      ((readRun (k + 1) a s).2.consoleWriteAll ((readRun (k + 1) a s).1.flatMap f)).raiseFault .stringOverrun w := by
  induction k generalizing a s with
  | zero =>
    obtain ⟨hcell, -⟩ := List.ne_and_not_mem_of_not_mem_cons hz
    rw [emitString_of_last_cell f w hcell.symm]
    simp [readRun]
  | succ k ih =>
    obtain ⟨hcell, hrest⟩ := List.ne_and_not_mem_of_not_mem_cons hz
    rw [emitString_of_cell f w k hcell.symm, ih (by rwa [readRun_consoleWriteAll]), readRun_consoleWriteAll,
      consoleWriteAll_append]
    rfl

/-! ### PUTS and PUTSP (R133, R135) -/

/-- What PUTS and PUTSP do: R7, then the loop from R0 on. -/
def printString (f : Word → List Byte) (w : Word) (s : State) : State :=
  s.enterTrap.emitString f w (cellsAbove (s.getReg 0)) (s.getReg 0)

theorem exec_trapPuts (u : BitVec 4) (s : State) :
    exec (.trapPuts u) s = .next (printString putsBytes (encode (.trapPuts u)) s) := by
  rw [printString, ← enterTrap_getReg_ne s (by decide : (0 : Reg) ≠ 7)]
  rfl

theorem exec_trapPutsp (u : BitVec 4) (s : State) :
    exec (.trapPutsp u) s = .next (printString putspBytes (encode (.trapPutsp u)) s) := by
  rw [printString, ← enterTrap_getReg_ne s (by decide : (0 : Reg) ≠ 7)]
  rfl

theorem flatMap_putsBytes (cs : List Word) : cs.flatMap putsBytes = lowBytes cs := List.flatMap_pure_eq_map _ cs

theorem flatMap_putspBytes (cs : List Word) : cs.flatMap putspBytes = packedBytes cs := by
  refine congrArg (List.flatMap · cs) (funext fun c => ?_)
  rw [putspBytes, apply_ite (List.cons _)]
  rfl

/-- The state in which `s` has written R7 and the bytes `bs`, after reads that left `u`. -/
def printed (bs : List Byte) (s u : State) : State := (u.setReg 7 s.pc).consoleWriteAll bs

theorem printed_onlyPrinted {s u : State} (h : ReadsTo s u) (bs : List Byte) : OnlyPrinted bs s u (printed bs s u) := by
  have hconsole : (printed bs s u).console = s.console ++ bs := congrArg (· ++ bs) (readsTo_console (u := u) h)
  have hcontrol : ControlKept s u := readsTo_controlKept h
  have hkept : CoreKept [7] s (u.setReg 7 s.pc) := .trans (.of_reads h) (.setReg List.mem_cons_self u s.pc)
  exact ⟨hconsole, getReg_setReg_same u 7 s.pc, hkept.regs, hkept.cond, hkept.pc, fun _ _ => rfl, rfl,
    hcontrol⟩

theorem printed_overrun {s u : State} (h : ReadsTo s u) (bs : List Byte) (w : Word) :
    PrintedThenOverrun bs w s u ((printed bs s u).raiseFault .stringOverrun w) := by
  obtain ⟨hconsole, hlink, hregs, hcond, hpc, hcells, hinput, -, -, hcfg⟩ := printed_onlyPrinted h bs
  exact ⟨hconsole, rfl, rfl, hlink, hregs, hcond, hpc, hcells, hinput, hcfg⟩

theorem readRun_enterTrap (n : Nat) (a : Word) (s : State) :
    readRun n a s.enterTrap = ((readRun n a s).1, (readRun n a s).2.setReg 7 s.pc) :=
  readRun_of_unseenByReads (setReg_unseenByReads 7 s.pc) n a s

theorem printString_of_zero_cell (f : Word → List Byte) (w : Word) {s : State} {n : Nat} {cs : List Word}
    (hn : (s.getReg 0).toNat + n ≤ 0xFFFF) (hr : (readRun (n + 1) (s.getReg 0) s).1 = cs ++ [0#16]) (hz : 0#16 ∉ cs) :
    printString f w s = printed (cs.flatMap f) s (readRun (n + 1) (s.getReg 0) s).2 := by
  obtain rfl : n = cs.length := by simpa [readRun_length] using congrArg List.length hr
  have hk : cs.length ≤ cellsAbove (s.getReg 0) := Nat.le_sub_of_add_le' hn
  rw [printString, emitString_of_readRun f w hk (by rwa [readRun_enterTrap]) hz, readRun_enterTrap]
  rfl

theorem printString_of_overrun (f : Word → List Byte) (w : Word) {s : State} {n : Nat}
    (hn : (s.getReg 0).toNat + n = 0xFFFF) (hz : 0#16 ∉ (readRun (n + 1) (s.getReg 0) s).1) :
    printString f w s = (printed ((readRun (n + 1) (s.getReg 0) s).1.flatMap f) s
      (readRun (n + 1) (s.getReg 0) s).2).raiseFault .stringOverrun w := by
  have hk : cellsAbove (s.getReg 0) = n := Nat.sub_eq_of_eq_add' hn.symm
  rw [printString, hk, emitString_of_readRun_overrun f w (by rwa [readRun_enterTrap]), readRun_enterTrap]
  rfl

/-- Of memory and input, a scan of `n + 1` cells from `a` on changes what its polls change. -/
def ScanKept (n : Nat) (a : Word) (s t : State) : Prop :=
  CellsKept keyboardCells s t ∧
    ((∀ j ≤ n, ¬ Polls s (a + BitVec.ofNat 16 j)) → CellsKept [] s t ∧ t.input = s.input)

theorem scanKept_of_readRun {s t : State} {n : Nat} {a : Word} (hcells : CellsKept [] (readRun (n + 1) a s).2 t)
    (hinput : t.input = (readRun (n + 1) a s).2.input) : ScanKept n a s t := by
  refine ⟨fun c hc => ?polls, fun hp => ?plain⟩
  case polls => exact (hcells c List.not_mem_nil).trans (readsTo_cellsKept (readsTo_readRun (n + 1) a s) c hc)
  case plain =>
    rw [readRun_snd_of_not_polls fun j hj => hp j (Nat.le_of_lt_succ hj)] at hcells hinput
    exact ⟨hcells, hinput⟩

/-- The end at a zero cell. -/
theorem printString_onlyPrinted (f : Word → List Byte) (w : Word) {s : State} {n : Nat} {cs : List Word}
    (hn : (s.getReg 0).toNat + n ≤ 0xFFFF) (hr : (readRun (n + 1) (s.getReg 0) s).1 = cs ++ [0#16]) (hz : 0#16 ∉ cs) :
    OnlyPrinted (cs.flatMap f) s (readRun (n + 1) (s.getReg 0) s).2 (printString f w s) ∧
      ScanKept n (s.getReg 0) s (printString f w s) := by
  rw [printString_of_zero_cell f w hn hr hz]
  exact ⟨printed_onlyPrinted (readsTo_readRun _ _ s) _, scanKept_of_readRun (fun _ _ => rfl) rfl⟩

/-- D11: the end after a nonzero cell at 0xFFFF. -/
theorem printString_printedThenOverrun (f : Word → List Byte) (w : Word) {s : State} {n : Nat}
    (hn : (s.getReg 0).toNat + n = 0xFFFF) (hz : 0#16 ∉ (readRun (n + 1) (s.getReg 0) s).1) :
    PrintedThenOverrun ((readRun (n + 1) (s.getReg 0) s).1.flatMap f) w s (readRun (n + 1) (s.getReg 0) s).2
        (printString f w s) ∧
      ScanKept n (s.getReg 0) s (printString f w s) := by
  rw [printString_of_overrun f w hn hz]
  exact ⟨printed_overrun (readsTo_readRun _ _ s) _ w, scanKept_of_readRun (fun _ _ => rfl) rfl⟩

/-- Settles O36: the two ends of the loop, with the low byte of each cell. -/
theorem putsWritesLowBytesUpToTheZeroCell : Obligations.PutsWritesLowBytesUpToTheZeroCell := by
  refine ⟨fun _ => decode_trapPuts_of_masked, fun u s n cs hn hr hz => ⟨_, exec_trapPuts u s, ?zero⟩,
    fun u s n hn hz => ⟨_, exec_trapPuts u s, ?overrun⟩, fun u s => ⟨_, exec_trapPuts u s⟩⟩
  case zero =>
    rw [← flatMap_putsBytes]
    exact printString_onlyPrinted putsBytes _ hn hr hz
  case overrun =>
    rw [← flatMap_putsBytes]
    exact printString_printedThenOverrun putsBytes _ hn hz

/-- Settles O38: as PUTS, with the low byte of each cell and its high byte if that is not zero. -/
theorem putspWritesPackedBytesUpToTheZeroCell : Obligations.PutspWritesPackedBytesUpToTheZeroCell := by
  refine ⟨fun _ => decode_trapPutsp_of_masked, fun u s n cs hn hr hz => ⟨_, exec_trapPutsp u s, ?zero⟩,
    fun u s n hn hz => ⟨_, exec_trapPutsp u s, ?overrun⟩, fun u s => ⟨_, exec_trapPutsp u s⟩⟩
  case zero =>
    rw [← flatMap_putspBytes]
    exact printString_onlyPrinted putspBytes _ hn hr hz
  case overrun =>
    rw [← flatMap_putspBytes]
    exact printString_printedThenOverrun putspBytes _ hn hz

/-! ### OUT and HALT (R132, R136) -/

theorem exec_trapOut (u : BitVec 4) (s : State) :
    exec (.trapOut u) s = .next (s.enterTrap.consoleWrite (lowByte (s.getReg 0))) := by
  rw [← enterTrap_getReg_ne s (by decide : (0 : Reg) ≠ 7)]
  rfl

theorem exec_trapHalt (u : BitVec 4) (s : State) :
    exec (.trapHalt u) s = .next (s.enterTrap.consoleWriteAll s.cfg.haltNotice).stop := rfl

/-- Settles O35: the byte is of the R0 that the write of R7 leaves alone. -/
theorem outWritesTheLowByteOfR0 : Obligations.OutWritesTheLowByteOfR0 := by
  refine ⟨fun _ => decode_trapOut_of_masked, fun u s => ?completes⟩
  have hexec := exec_trapOut u s
  obtain ⟨hlink, hregs⟩ := exec_link_and_regsKept rfl hexec
  exact ⟨_, hexec, rfl, hlink, hregs, rfl, rfl, fun _ _ => rfl, rfl, rfl, rfl, rfl⟩

/-- Settles O39: the notice and the stop, on the state that the write of R7 leaves. -/
theorem haltWritesTheNoticeAndStops : Obligations.HaltWritesTheNoticeAndStops := by
  refine ⟨fun _ => decode_trapHalt_of_masked, fun u s => ?completes⟩
  have hexec := exec_trapHalt u s
  obtain ⟨hlink, hregs⟩ := exec_link_and_regsKept rfl hexec
  exact ⟨_, hexec, rfl, rfl, rfl, hlink, hregs, rfl, rfl, fun _ _ => rfl, rfl, rfl⟩

/-! ### The faults (R137 to R139, R151) -/

theorem raiseFault_onlyFaulted (s : State) (c : FaultCause) (w : Word) : OnlyFaulted c w s (s.raiseFault c w) :=
  ⟨rfl, rfl, fun _ _ => rfl, rfl, rfl, fun _ _ => rfl, ⟨rfl, rfl⟩, rfl⟩

/-- Settles O40: the word is the encoding of the undefined TRAP, and the fault records it after R7 is written. -/
theorem undefinedTrapVectorFaults : Obligations.UndefinedTrapVectorFaults := by
  intro w h hv
  have hw : encode (.trapUndef (w.extractLsb' 8 4) (w.extractLsb' 0 8)) = w :=
    encodeTrap_fields (opcodeOf_of_masked h rfl) rfl
  have hwf : (Instr.trapUndef (w.extractLsb' 8 4) (w.extractLsb' 0 8)).wf = true :=
    congrArg Bool.not ((definedTrapVector_eq_false_iff _).2 hv)
  refine ⟨decode_of_encode_eq hw hwf, fun s => ⟨_, rfl, enterTrap_getReg_seven s, ?_⟩⟩
  rw [hw]
  exact raiseFault_onlyFaulted s.enterTrap _ w

/-- R138, R139: an instruction that does nothing but fault records the word that encodes it. -/
theorem faults_of_encode_eq {i : Instr} {w : Word} {c : FaultCause} (hw : encode i = w) (hwf : i.wf = true)
    (hexec : ∀ s, exec i s = .next (s.raiseFault c (encode i))) :
    decode w = i ∧ ∀ s, ∃ t, exec i s = .next t ∧ OnlyFaulted c w s t := by
  refine ⟨decode_of_encode_eq hw hwf, fun s => ⟨_, hexec s, ?_⟩⟩
  rw [hw]
  exact raiseFault_onlyFaulted s c w

/-- Settles O41: RTI does nothing but fault, and a word of its row is its encoding. -/
theorem rtiFaults : Obligations.RtiFaults := fun _ h =>
  faults_of_encode_eq (encodeNone_fields (opcodeOf_of_masked h rfl)) rfl fun _ => rfl

/-- Settles O42: as RTI, with the opcode of RES. -/
theorem resFaults : Obligations.ResFaults := fun _ h =>
  faults_of_encode_eq (encodeNone_fields (opcodeOf_of_masked h rfl)) rfl fun _ => rfl

end Sys2Proof.Proofs
end

section
/-! Proof of the statement of spec/60_exceptions.md: every step keeps the invariant (R40, R151) and the parameters of the run
(R4). The fetch and the instruction each keep both halves of the invariant: memory changes by reads and stores only, which keep
its canonical form, and a fault is recorded by `raiseFault` only, which stops the core. -/

namespace Sys2Proof.Proofs

open Sys2Proof Sys2Proof.Machine Sys2Proof.Claims Sys2Proof.Laws

/-- R40: every instruction that completes keeps the canonical form of memory. -/
theorem exec_wf {i : Instr} {s t : State} (hw : Memory.wf s.mem) (h : exec i s = .next t) : Memory.wf t.mem := by
  cases i with
  | st _ _ | str _ _ _ =>
    cases h
    exact setCell_wf hw _ _
  | sti sr off9 =>
    cases h
    exact setCell_wf (afterRead_wf hw (pcRelative s.pc off9)) _ _
  | ld dr off9 =>
    cases h
    exact afterRead_wf hw (pcRelative s.pc off9)
  | ldr dr baser off6 =>
    cases h
    exact afterRead_wf hw (basePlusOffset (s.getReg baser) off6)
  | ldi dr off9 =>
    cases h
    exact afterRead_wf (afterRead_wf hw (pcRelative s.pc off9)) (s.memRead (pcRelative s.pc off9)).1
  | trapPuts unused =>
    obtain ⟨bs, v, hr, e | e⟩ := execTrapPuts_cases s unused <;> cases e.symm.trans h <;> exact hr.wf hw
  | trapPutsp unused =>
    obtain ⟨bs, v, hr, e | e⟩ := execTrapPutsp_cases s unused <;> cases e.symm.trans h <;> exact hr.wf hw
  | trapGetc _ =>
    rcases execTrapGetc_cases s with ⟨-, e⟩ | ⟨k, rest, -, e⟩ <;> cases e.symm.trans h
    exact hw
  | trapIn _ =>
    rcases execTrapIn_cases s with ⟨-, e⟩ | ⟨k, rest, -, e⟩ <;> cases e.symm.trans h
    exact hw
  | br n z p off9 =>
    rw [exec_br] at h
    cases h
    exact hw
  | _ =>
    cases h
    exact hw

/-- R151: an instruction that does not stop the core leaves `FAULT` as it was. -/
theorem CoreEffect.fault_only_when_stopped {i : Instr} {s t : State} (h : CoreEffect i s t)
    (hs : s.fault ≠ none → s.run = false) : t.fault ≠ none → t.run = false := by
  rcases h.stops with ⟨hr, hf, -⟩ | ⟨hr, -⟩ | ⟨hr, -⟩
  · rwa [hr, hf]
  · exact fun _ => hr
  · exact fun _ => hr

/-- R81: a fetch reads, which keeps the canonical form, and writes neither `RUN` nor `FAULT`. -/
theorem fetch_inv {s : State} (h : Safety.Inv s) : Safety.Inv s.fetch.2 := by
  obtain ⟨hwf, hfault⟩ := h
  exact ⟨afterRead_wf hwf s.pc, by simpa using hfault⟩

theorem exec_inv {i : Instr} {s t : State} (hs : Safety.Inv s) (h : exec i s = .next t) : Safety.Inv t := by
  obtain ⟨hwf, hfault⟩ := hs
  exact ⟨exec_wf hwf h, (exec_coreEffect h).fault_only_when_stopped hfault⟩

/-- Settles O47: a stopped core stays as it is; a running core's step is a fetch and an instruction, and each keeps the
invariant. -/
theorem everyStepKeepsTheInvariant : Obligations.EveryStepKeepsTheInvariant := by
  intro s t hs h
  cases hrun : s.run with
  | false =>
    cases (step_of_stopped hrun).symm.trans h
    exact ⟨hs, rfl⟩
  | true =>
    have hexec : exec (decode s.fetch.1) s.fetch.2 = .next t := (step_of_run hrun).symm.trans h
    exact ⟨exec_inv (fetch_inv hs) hexec, (step_streamEffect hrun h).cfg⟩

end Sys2Proof.Proofs
end

section
/-! Proof of the statement of spec/70_reset_and_hazards.md: GETC and IN wait when no character is to come (R177, D19). The state
in which the core waits is the one that has written R7 and the prompt, which GETC has not. -/

namespace Sys2Proof.Proofs

open Sys2Proof Sys2Proof.Machine Sys2Proof.Claims Sys2Proof.Laws

theorem exec_trapGetc_of_nil (u : BitVec 4) {s : State} (h : s.input = []) :
    exec (.trapGetc u) s = .fault (.blockedOnInput s.enterTrap) := by
  rcases execTrapGetc_cases s with ⟨-, e⟩ | ⟨k, rest, hk, -⟩
  · exact e
  · cases h.symm.trans hk

theorem exec_trapIn_of_nil (u : BitVec 4) {s : State} (h : s.input = []) :
    exec (.trapIn u) s = .fault (.blockedOnInput (s.enterTrap.consoleWriteAll s.cfg.inPrompt)) := by
  rcases execTrapIn_cases s with ⟨-, e⟩ | ⟨k, rest, hk, -⟩
  · exact e
  · cases h.symm.trans hk

/-- R130: the common part of a TRAP writes R7 and nothing else. -/
theorem enterTrap_onlyPrinted_nil (s : State) : OnlyPrinted [] s s s.enterTrap :=
  consoleWriteAll_nil s.enterTrap ▸ printed_onlyPrinted (.refl s) []

/-- R134: what IN does before it asks for a character. -/
theorem enterTrap_consoleWriteAll_onlyPrinted (s : State) (bs : List Byte) :
    OnlyPrinted bs s s (s.enterTrap.consoleWriteAll bs) := printed_onlyPrinted (.refl s) bs

/-- Settles O43: with no character the outcome holds the state after R7 and the prompt are written. -/
theorem getcAndInWaitWithoutInput : Obligations.GetcAndInWaitWithoutInput := by
  intro u s h
  refine ⟨⟨_, exec_trapGetc_of_nil u h, ?blockedGetc⟩, ⟨_, exec_trapIn_of_nil u h, ?blockedIn⟩⟩
  case blockedGetc =>
    obtain ⟨-, hlink, hregs, hcond, hpc, hcells, hinput, hcontrol⟩ := enterTrap_onlyPrinted_nil s
    exact ⟨rfl, hlink, hregs, hcond, hpc, hcells, hinput.trans h, hcontrol⟩
  case blockedIn =>
    obtain ⟨hconsole, hlink, hregs, hcond, hpc, hcells, hinput, hcontrol⟩ :=
      enterTrap_consoleWriteAll_onlyPrinted s s.cfg.inPrompt
    exact ⟨hconsole, hlink, hregs, hcond, hpc, hcells, hinput.trans h, hcontrol⟩

end Sys2Proof.Proofs
end
